-- ==== Sys2Proof/Word.lean ====
section
/-! DEFINITION. The word types of the core: the widths of 00_scope.md R6 and the nibbles of R8. -/

namespace Sys2Proof

/-- A 4-bit field of an instruction word (GLOSSARY "Nibble"); a register number or a sprite height (R9). -/
abbrev Nibble := BitVec 4

/-- The 8-bit unit of `memory` and of the general registers (R21, R50). -/
abbrev Byte := BitVec 8

/-- The 12-bit address operand `NNN` (R9). -/
abbrev Addr12 := BitVec 12

/-- An instruction word, and the width of `pc` and `I` (R24, R28, R80). -/
abbrev Word := BitVec 16

/-- One row of the display: 64 pixels, column 0 in the most significant bit (R31, R33). -/
abbrev RowWord := BitVec 64

end Sys2Proof
end

