-- ==== Sys2Proof/Config.lean ====
section
/-! DEFINITION. The implementation parameters of 00_scope.md R6, and the one parameter the spec leaves OPEN (D12). -/

namespace Sys2Proof

/-- `MEM_SIZE`: addresses 0x000 to 0xFFF (R6, R50). -/
@[simp, reducible] def Config.memSize : Nat := 0x1000

/-- `MEM_TOP`: the highest valid byte address (R6). -/
@[simp, reducible] def Config.memTop : Nat := 0xFFF

/-- `RESERVED_HI`: the last address of the unprotected reserved range that starts at 0 (R6, R61). -/
@[simp, reducible] def Config.reservedHi : Nat := 0x1FF

/-- `ENTRY`: the reset value of `pc` and the first byte of the ROM image (R6, R201). -/
@[simp, reducible] def Config.entry : Nat := 0x200

/-- `ROM_MAX`: the largest ROM image in bytes (R6, R204). -/
@[simp, reducible] def Config.romMax : Nat := 3584

/-- `NREGS`: the general registers V0 to VF (R6, R21). -/
@[simp, reducible] def Config.nregs : Nat := 16

/-- `DISP_ROWS` (R6, R31). -/
@[simp, reducible] def Config.dispRows : Nat := 32

/-- `DISP_COLS` (R6, R31). -/
@[simp, reducible] def Config.dispCols : Nat := 64

/-- `SPRITE_W`: the pixels of one sprite byte (R6). -/
@[simp, reducible] def Config.spriteW : Nat := 8

/-- `STEP_INTERVAL_MS`: the pacing interval of the host's scheduler; no rule of the core reads it (R6, R214). -/
@[simp, reducible] def Config.stepIntervalMs : Nat := 100

/-- `LAST_STEP_TIME_INIT`: the scheduler's first timestamp, in milliseconds. OPEN (D12, N9), so it has no value here
(log entry 15). No rule of the core reads it. -/
opaque Config.lastStepTimeInit : Nat

end Sys2Proof
end

