-- ==== Sys2Proof/Syntax.lean ====
section
/-! DEFINITION. The instruction syntax: one constructor for each row of spec/opcode_table.json (30_encoding.md R85, R87).
The bits a row ignores (R82) stay operands of its constructor, so that an instruction is exactly one 16-bit word. -/

namespace Sys2Proof

/-- The instructions. Nibbles are numbered as in R8: `n2` is bits 11..8, `n4` is bits 3..0. -/
inductive Instr where
  /-- `CLS` (R100); `n2` and `n4` are ignored (R86). -/
  | cls (n2 n4 : Nibble)
  /-- `JP addr` (R110). -/
  | jpAddr (nnn : Addr12)
  /-- `LD Vx, byte` (R120). -/
  | ldVxByte (x : Nibble) (kk : Byte)
  /-- `ADD Vx, byte` (R124). -/
  | addVxByte (x : Nibble) (kk : Byte)
  /-- `LD I, addr` (R128). -/
  | ldIAddr (nnn : Addr12)
  /-- `DRW Vx, Vy, n` (R140). -/
  | drwVxVyN (x y n : Nibble)
  /-- Unrecognized: category 0x0, 3rd nibble 0x0 (R87 (a), R160). -/
  | unrecY0 (n2 n4 : Nibble)
  /-- Unrecognized: category 0x0, 3rd nibble 0x1 (R87 (a), R160). -/
  | unrecY1 (n2 n4 : Nibble)
  /-- Unrecognized: category 0x0, 3rd nibble 0x2 (R87 (a), R160). -/
  | unrecY2 (n2 n4 : Nibble)
  /-- Unrecognized: category 0x0, 3rd nibble 0x3 (R87 (a), R160). -/
  | unrecY3 (n2 n4 : Nibble)
  /-- Unrecognized: category 0x0, 3rd nibble 0x4 (R87 (a), R160). -/
  | unrecY4 (n2 n4 : Nibble)
  /-- Unrecognized: category 0x0, 3rd nibble 0x5 (R87 (a), R160). -/
  | unrecY5 (n2 n4 : Nibble)
  /-- Unrecognized: category 0x0, 3rd nibble 0x6 (R87 (a), R160). -/
  | unrecY6 (n2 n4 : Nibble)
  /-- Unrecognized: category 0x0, 3rd nibble 0x7 (R87 (a), R160). -/
  | unrecY7 (n2 n4 : Nibble)
  /-- Unrecognized: category 0x0, 3rd nibble 0x8 (R87 (a), R160). -/
  | unrecY8 (n2 n4 : Nibble)
  /-- Unrecognized: category 0x0, 3rd nibble 0x9 (R87 (a), R160). -/
  | unrecY9 (n2 n4 : Nibble)
  /-- Unrecognized: category 0x0, 3rd nibble 0xA (R87 (a), R160). -/
  | unrecYA (n2 n4 : Nibble)
  /-- Unrecognized: category 0x0, 3rd nibble 0xB (R87 (a), R160). -/
  | unrecYB (n2 n4 : Nibble)
  /-- Unrecognized: category 0x0, 3rd nibble 0xC (R87 (a), R160). -/
  | unrecYC (n2 n4 : Nibble)
  /-- Unrecognized: category 0x0, 3rd nibble 0xD (R87 (a), R160). -/
  | unrecYD (n2 n4 : Nibble)
  /-- Unrecognized: category 0x0, 3rd nibble 0xF (R87 (a), R160). -/
  | unrecYF (n2 n4 : Nibble)
  /-- Unrecognized: category 0x2 (R87 (b), R160). -/
  | unrecOp2 (rest : Addr12)
  /-- Unrecognized: category 0x3 (R87 (b), R160). -/
  | unrecOp3 (rest : Addr12)
  /-- Unrecognized: category 0x4 (R87 (b), R160). -/
  | unrecOp4 (rest : Addr12)
  /-- Unrecognized: category 0x5 (R87 (b), R160). -/
  | unrecOp5 (rest : Addr12)
  /-- Unrecognized: category 0x8 (R87 (b), R160). -/
  | unrecOp8 (rest : Addr12)
  /-- Unrecognized: category 0x9 (R87 (b), R160). -/
  | unrecOp9 (rest : Addr12)
  /-- Unrecognized: category 0xB (R87 (b), R160). -/
  | unrecOpB (rest : Addr12)
  /-- Unrecognized: category 0xC (R87 (b), R160). -/
  | unrecOpC (rest : Addr12)
  /-- Unrecognized: category 0xE (R87 (b), R160). -/
  | unrecOpE (rest : Addr12)
  /-- Unrecognized: category 0xF (R87 (b), R160). -/
  | unrecOpF (rest : Addr12)
  deriving DecidableEq, Repr

end Sys2Proof
end

