-- ==== Sys2Proof/WellFormed.lean ====
section
/-! DEFINITION. Well-formedness: the operand ranges of 30_encoding.md R83 and R91, and the image size of 70_reset_and_hazards.md R204.
The checks are over numbers, because the assembler (Machine/Assembler.lean) meets numbers; an `Instr` holds fields of the
exact width, so every `Instr` passes them (log entry 16): "every 16-bit word is executable, every register value is a legal
operand" (R208). -/

namespace Sys2Proof

/-- A register number: 0 to 15 (R83). -/
def isRegNumber (n : Nat) : Bool := decide (n < 16)

/-- A byte operand: 0 to 255 (R83, R91). -/
def isByte (n : Nat) : Bool := decide (n < 256)

/-- An address operand: 0 to 4095 (R83, R91). -/
def isAddress (n : Nat) : Bool := decide (n < 4096)

/-- A sprite height: 0 to 15 (R83, R149). -/
def isHeight (n : Nat) : Bool := decide (n < 16)

/-- An ignored nibble (R82): 0 to 15. -/
def isNibble (n : Nat) : Bool := decide (n < 16)

/-- An instruction word: 0 to 65535 (R80). -/
def isWord (n : Nat) : Bool := decide (n < 65536)

/-- A ROM image the host accepts: at most 3584 bytes (R204). -/
def isImage (bytes : List Byte) : Bool := decide (bytes.length ≤ Config.romMax)

/-- Every operand is in the range its field gives it (R83). An ignored nibble (R82) may hold anything a nibble holds. -/
def Instr.wellFormed : Instr → Bool
  | .cls n2 n4 => isNibble n2.toNat && isNibble n4.toNat
  | .jpAddr nnn => isAddress nnn.toNat
  | .ldVxByte x kk => isRegNumber x.toNat && isByte kk.toNat
  | .addVxByte x kk => isRegNumber x.toNat && isByte kk.toNat
  | .ldIAddr nnn => isAddress nnn.toNat
  | .drwVxVyN x y n => isRegNumber x.toNat && isRegNumber y.toNat && isHeight n.toNat
  | .unrecY0 n2 n4 => isNibble n2.toNat && isNibble n4.toNat
  | .unrecY1 n2 n4 => isNibble n2.toNat && isNibble n4.toNat
  | .unrecY2 n2 n4 => isNibble n2.toNat && isNibble n4.toNat
  | .unrecY3 n2 n4 => isNibble n2.toNat && isNibble n4.toNat
  | .unrecY4 n2 n4 => isNibble n2.toNat && isNibble n4.toNat
  | .unrecY5 n2 n4 => isNibble n2.toNat && isNibble n4.toNat
  | .unrecY6 n2 n4 => isNibble n2.toNat && isNibble n4.toNat
  | .unrecY7 n2 n4 => isNibble n2.toNat && isNibble n4.toNat
  | .unrecY8 n2 n4 => isNibble n2.toNat && isNibble n4.toNat
  | .unrecY9 n2 n4 => isNibble n2.toNat && isNibble n4.toNat
  | .unrecYA n2 n4 => isNibble n2.toNat && isNibble n4.toNat
  | .unrecYB n2 n4 => isNibble n2.toNat && isNibble n4.toNat
  | .unrecYC n2 n4 => isNibble n2.toNat && isNibble n4.toNat
  | .unrecYD n2 n4 => isNibble n2.toNat && isNibble n4.toNat
  | .unrecYF n2 n4 => isNibble n2.toNat && isNibble n4.toNat
  | .unrecOp2 rest => isAddress rest.toNat
  | .unrecOp3 rest => isAddress rest.toNat
  | .unrecOp4 rest => isAddress rest.toNat
  | .unrecOp5 rest => isAddress rest.toNat
  | .unrecOp8 rest => isAddress rest.toNat
  | .unrecOp9 rest => isAddress rest.toNat
  | .unrecOpB rest => isAddress rest.toNat
  | .unrecOpC rest => isAddress rest.toNat
  | .unrecOpE rest => isAddress rest.toNat
  | .unrecOpF rest => isAddress rest.toNat

end Sys2Proof
end

