-- ==== Sys2Proof/Decode.lean ====
section
/-! DEFINITION. Decode and encode (30_encoding.md R80 to R88, R91), and the opcode table as data.
Decoding is total on all 65536 words (R84); a byte stream too short to hold a word is rejected by name. -/

namespace Sys2Proof

/-- `OP = w[15:12]`, the 1st nibble (R9). -/
def fieldOP (w : Word) : Nibble := w.extractLsb' 12 4

/-- `X = w[11:8]`, the 2nd nibble (R9). -/
def fieldX (w : Word) : Nibble := w.extractLsb' 8 4

/-- `Y = w[7:4]`, the 3rd nibble (R9). -/
def fieldY (w : Word) : Nibble := w.extractLsb' 4 4

/-- `N = w[3:0]`, the 4th nibble (R9). -/
def fieldN (w : Word) : Nibble := w.extractLsb' 0 4

/-- `KK = w[7:0]`, the 8-bit immediate (R9). -/
def fieldKK (w : Word) : Byte := w.extractLsb' 0 8

/-- `NNN = w[11:0]`, the 12-bit address (R9). -/
def fieldNNN (w : Word) : Addr12 := w.extractLsb' 0 12

/-- Category 0x0: CLS when the 3rd nibble is 0xE, unrecognized otherwise (R84, R86, R87 (a)). -/
def decodeCategory0 (w : Word) : Instr :=
  let y := fieldY w
  if y = 0x0#4 then .unrecY0 (fieldX w) (fieldN w)
  else if y = 0x1#4 then .unrecY1 (fieldX w) (fieldN w)
  else if y = 0x2#4 then .unrecY2 (fieldX w) (fieldN w)
  else if y = 0x3#4 then .unrecY3 (fieldX w) (fieldN w)
  else if y = 0x4#4 then .unrecY4 (fieldX w) (fieldN w)
  else if y = 0x5#4 then .unrecY5 (fieldX w) (fieldN w)
  else if y = 0x6#4 then .unrecY6 (fieldX w) (fieldN w)
  else if y = 0x7#4 then .unrecY7 (fieldX w) (fieldN w)
  else if y = 0x8#4 then .unrecY8 (fieldX w) (fieldN w)
  else if y = 0x9#4 then .unrecY9 (fieldX w) (fieldN w)
  else if y = 0xA#4 then .unrecYA (fieldX w) (fieldN w)
  else if y = 0xB#4 then .unrecYB (fieldX w) (fieldN w)
  else if y = 0xC#4 then .unrecYC (fieldX w) (fieldN w)
  else if y = 0xD#4 then .unrecYD (fieldX w) (fieldN w)
  else if y = 0xE#4 then .cls (fieldX w) (fieldN w)
  else .unrecYF (fieldX w) (fieldN w)

/-- The decode function of R84, total on every word. -/
def decode (w : Word) : Instr :=
  let op := fieldOP w
  if op = 0x0#4 then decodeCategory0 w
  else if op = 0x1#4 then .jpAddr (fieldNNN w)
  else if op = 0x2#4 then .unrecOp2 (fieldNNN w)
  else if op = 0x3#4 then .unrecOp3 (fieldNNN w)
  else if op = 0x4#4 then .unrecOp4 (fieldNNN w)
  else if op = 0x5#4 then .unrecOp5 (fieldNNN w)
  else if op = 0x6#4 then .ldVxByte (fieldX w) (fieldKK w)
  else if op = 0x7#4 then .addVxByte (fieldX w) (fieldKK w)
  else if op = 0x8#4 then .unrecOp8 (fieldNNN w)
  else if op = 0x9#4 then .unrecOp9 (fieldNNN w)
  else if op = 0xA#4 then .ldIAddr (fieldNNN w)
  else if op = 0xB#4 then .unrecOpB (fieldNNN w)
  else if op = 0xC#4 then .unrecOpC (fieldNNN w)
  else if op = 0xD#4 then .drwVxVyN (fieldX w) (fieldY w) (fieldN w)
  else if op = 0xE#4 then .unrecOpE (fieldNNN w)
  else .unrecOpF (fieldNNN w)

/-- The instruction word of two bytes: the first byte is the high-order byte (R52, R54). -/
def wordOfBytes (hi lo : Byte) : Word := hi ++ lo

/-- The high-order byte of a word, stored at the lower address (R54). -/
def hiByte (w : Word) : Byte := w.extractLsb' 8 8

/-- The low-order byte of a word, stored at the higher address (R54). -/
def loByte (w : Word) : Byte := w.extractLsb' 0 8

/-- Why a byte stream holds no instruction. -/
inductive DecodeReject where
  /-- Fewer than the two bytes of a word are there (R80); raised by `decodeBytes` alone, safe. -/
  | truncated (available : Nat)
  deriving DecidableEq, Repr

/-- Decode the first word of a byte stream and give the rest of it; total on any bytes (R80: "it is always 2 bytes"). -/
def decodeBytes : List Byte → Except DecodeReject (Instr × List Byte)
  | [] => .error (.truncated 0)
  | [_] => .error (.truncated 1)
  | hi :: lo :: rest => .ok (decode (wordOfBytes hi lo), rest)

/-- Formats `XYN`, `Z` and the `U` words of category 0x0: four nibbles, the 1st in bits 15..12 (R82). -/
def formatXYN (op x y n : Nibble) : Word := op ++ x ++ y ++ n

/-- Format `XB`: the operation, a register number, a byte (R82). -/
def formatXB (op x : Nibble) (kk : Byte) : Word := op ++ x ++ kk

/-- Format `A` and the `U` words of a whole category: the operation and 12 bits (R82). -/
def formatA (op : Nibble) (nnn : Addr12) : Word := op ++ nnn

/-- The word of an instruction, from the patterns of R85 and R87. -/
def encode : Instr → Word
  | .cls n2 n4 => formatXYN 0x0#4 n2 0xE#4 n4
  | .jpAddr nnn => formatA 0x1#4 nnn
  | .ldVxByte x kk => formatXB 0x6#4 x kk
  | .addVxByte x kk => formatXB 0x7#4 x kk
  | .ldIAddr nnn => formatA 0xA#4 nnn
  | .drwVxVyN x y n => formatXYN 0xD#4 x y n
  | .unrecY0 n2 n4 => formatXYN 0x0#4 n2 0x0#4 n4
  | .unrecY1 n2 n4 => formatXYN 0x0#4 n2 0x1#4 n4
  | .unrecY2 n2 n4 => formatXYN 0x0#4 n2 0x2#4 n4
  | .unrecY3 n2 n4 => formatXYN 0x0#4 n2 0x3#4 n4
  | .unrecY4 n2 n4 => formatXYN 0x0#4 n2 0x4#4 n4
  | .unrecY5 n2 n4 => formatXYN 0x0#4 n2 0x5#4 n4
  | .unrecY6 n2 n4 => formatXYN 0x0#4 n2 0x6#4 n4
  | .unrecY7 n2 n4 => formatXYN 0x0#4 n2 0x7#4 n4
  | .unrecY8 n2 n4 => formatXYN 0x0#4 n2 0x8#4 n4
  | .unrecY9 n2 n4 => formatXYN 0x0#4 n2 0x9#4 n4
  | .unrecYA n2 n4 => formatXYN 0x0#4 n2 0xA#4 n4
  | .unrecYB n2 n4 => formatXYN 0x0#4 n2 0xB#4 n4
  | .unrecYC n2 n4 => formatXYN 0x0#4 n2 0xC#4 n4
  | .unrecYD n2 n4 => formatXYN 0x0#4 n2 0xD#4 n4
  | .unrecYF n2 n4 => formatXYN 0x0#4 n2 0xF#4 n4
  | .unrecOp2 rest => formatA 0x2#4 rest
  | .unrecOp3 rest => formatA 0x3#4 rest
  | .unrecOp4 rest => formatA 0x4#4 rest
  | .unrecOp5 rest => formatA 0x5#4 rest
  | .unrecOp8 rest => formatA 0x8#4 rest
  | .unrecOp9 rest => formatA 0x9#4 rest
  | .unrecOpB rest => formatA 0xB#4 rest
  | .unrecOpC rest => formatA 0xC#4 rest
  | .unrecOpE rest => formatA 0xE#4 rest
  | .unrecOpF rest => formatA 0xF#4 rest

/-- The bytes of an instruction as they lie in `memory`, lowest address first (R54). -/
def encodeBytes (i : Instr) : List Byte := [hiByte (encode i), loByte (encode i)]

/-- One row of the opcode table: it selects a word `w` when `w & mask = match` (R85). -/
structure TableRow where
  mnemonic : String
  mask : Word
  pattern : Word
  deriving DecidableEq, Repr

/-- The row selects the word (R85). -/
def TableRow.selects (r : TableRow) (w : Word) : Bool := w &&& r.mask == r.pattern

/-- The row of spec/opcode_table.json an instruction belongs to (R85, R87). -/
def Instr.row : Instr → TableRow
  | .cls _ _ => ⟨"CLS", 0xF0F0#16, 0x00E0#16⟩
  | .jpAddr _ => ⟨"JP_addr", 0xF000#16, 0x1000#16⟩
  | .ldVxByte _ _ => ⟨"LD_Vx__byte", 0xF000#16, 0x6000#16⟩
  | .addVxByte _ _ => ⟨"ADD_Vx__byte", 0xF000#16, 0x7000#16⟩
  | .ldIAddr _ => ⟨"LD_I__addr", 0xF000#16, 0xA000#16⟩
  | .drwVxVyN _ _ _ => ⟨"DRW_Vx__Vy__n", 0xF000#16, 0xD000#16⟩
  | .unrecY0 _ _ => ⟨"UNRECOGNIZED__0x0_category__3rd_nibble_0x0", 0xF0F0#16, 0x0000#16⟩
  | .unrecY1 _ _ => ⟨"UNRECOGNIZED__0x0_category__3rd_nibble_0x1", 0xF0F0#16, 0x0010#16⟩
  | .unrecY2 _ _ => ⟨"UNRECOGNIZED__0x0_category__3rd_nibble_0x2", 0xF0F0#16, 0x0020#16⟩
  | .unrecY3 _ _ => ⟨"UNRECOGNIZED__0x0_category__3rd_nibble_0x3", 0xF0F0#16, 0x0030#16⟩
  | .unrecY4 _ _ => ⟨"UNRECOGNIZED__0x0_category__3rd_nibble_0x4", 0xF0F0#16, 0x0040#16⟩
  | .unrecY5 _ _ => ⟨"UNRECOGNIZED__0x0_category__3rd_nibble_0x5", 0xF0F0#16, 0x0050#16⟩
  | .unrecY6 _ _ => ⟨"UNRECOGNIZED__0x0_category__3rd_nibble_0x6", 0xF0F0#16, 0x0060#16⟩
  | .unrecY7 _ _ => ⟨"UNRECOGNIZED__0x0_category__3rd_nibble_0x7", 0xF0F0#16, 0x0070#16⟩
  | .unrecY8 _ _ => ⟨"UNRECOGNIZED__0x0_category__3rd_nibble_0x8", 0xF0F0#16, 0x0080#16⟩
  | .unrecY9 _ _ => ⟨"UNRECOGNIZED__0x0_category__3rd_nibble_0x9", 0xF0F0#16, 0x0090#16⟩
  | .unrecYA _ _ => ⟨"UNRECOGNIZED__0x0_category__3rd_nibble_0xA", 0xF0F0#16, 0x00A0#16⟩
  | .unrecYB _ _ => ⟨"UNRECOGNIZED__0x0_category__3rd_nibble_0xB", 0xF0F0#16, 0x00B0#16⟩
  | .unrecYC _ _ => ⟨"UNRECOGNIZED__0x0_category__3rd_nibble_0xC", 0xF0F0#16, 0x00C0#16⟩
  | .unrecYD _ _ => ⟨"UNRECOGNIZED__0x0_category__3rd_nibble_0xD", 0xF0F0#16, 0x00D0#16⟩
  | .unrecYF _ _ => ⟨"UNRECOGNIZED__0x0_category__3rd_nibble_0xF", 0xF0F0#16, 0x00F0#16⟩
  | .unrecOp2 _ => ⟨"UNRECOGNIZED__category_0x2", 0xF000#16, 0x2000#16⟩
  | .unrecOp3 _ => ⟨"UNRECOGNIZED__category_0x3", 0xF000#16, 0x3000#16⟩
  | .unrecOp4 _ => ⟨"UNRECOGNIZED__category_0x4", 0xF000#16, 0x4000#16⟩
  | .unrecOp5 _ => ⟨"UNRECOGNIZED__category_0x5", 0xF000#16, 0x5000#16⟩
  | .unrecOp8 _ => ⟨"UNRECOGNIZED__category_0x8", 0xF000#16, 0x8000#16⟩
  | .unrecOp9 _ => ⟨"UNRECOGNIZED__category_0x9", 0xF000#16, 0x9000#16⟩
  | .unrecOpB _ => ⟨"UNRECOGNIZED__category_0xB", 0xF000#16, 0xB000#16⟩
  | .unrecOpC _ => ⟨"UNRECOGNIZED__category_0xC", 0xF000#16, 0xC000#16⟩
  | .unrecOpE _ => ⟨"UNRECOGNIZED__category_0xE", 0xF000#16, 0xE000#16⟩
  | .unrecOpF _ => ⟨"UNRECOGNIZED__category_0xF", 0xF000#16, 0xF000#16⟩

/-- The six rows that are instructions (R85). -/
def instructionRows : List TableRow :=
  [(Instr.cls 0 0).row, (Instr.jpAddr 0).row, (Instr.ldVxByte 0 0).row, (Instr.addVxByte 0 0).row,
    (Instr.ldIAddr 0).row, (Instr.drwVxVyN 0 0 0).row]

/-- The 15 unrecognized rows of category 0x0 (R87 (a)). -/
def category0Rows : List TableRow :=
  [(Instr.unrecY0 0 0).row, (Instr.unrecY1 0 0).row, (Instr.unrecY2 0 0).row, (Instr.unrecY3 0 0).row, (Instr.unrecY4 0 0).row,
    (Instr.unrecY5 0 0).row, (Instr.unrecY6 0 0).row, (Instr.unrecY7 0 0).row, (Instr.unrecY8 0 0).row, (Instr.unrecY9 0 0).row,
    (Instr.unrecYA 0 0).row, (Instr.unrecYB 0 0).row, (Instr.unrecYC 0 0).row, (Instr.unrecYD 0 0).row, (Instr.unrecYF 0 0).row]

/-- The ten unrecognized categories (R87 (b)). -/
def categoryRows : List TableRow :=
  [(Instr.unrecOp2 0).row, (Instr.unrecOp3 0).row, (Instr.unrecOp4 0).row, (Instr.unrecOp5 0).row, (Instr.unrecOp8 0).row,
    (Instr.unrecOp9 0).row, (Instr.unrecOpB 0).row, (Instr.unrecOpC 0).row, (Instr.unrecOpE 0).row, (Instr.unrecOpF 0).row]

/-- The opcode table of spec/opcode_table.json (R85, R87). -/
def opcodeTable : List TableRow := instructionRows ++ category0Rows ++ categoryRows

/-- The words that match no row of R85 and are skipped (R87, R160). -/
def Instr.isUnrecognized : Instr → Bool
  | .cls _ _ => false
  | .jpAddr _ => false
  | .ldVxByte _ _ => false
  | .addVxByte _ _ => false
  | .ldIAddr _ => false
  | .drwVxVyN _ _ _ => false
  | .unrecY0 _ _ => true
  | .unrecY1 _ _ => true
  | .unrecY2 _ _ => true
  | .unrecY3 _ _ => true
  | .unrecY4 _ _ => true
  | .unrecY5 _ _ => true
  | .unrecY6 _ _ => true
  | .unrecY7 _ _ => true
  | .unrecY8 _ _ => true
  | .unrecY9 _ _ => true
  | .unrecYA _ _ => true
  | .unrecYB _ _ => true
  | .unrecYC _ _ => true
  | .unrecYD _ _ => true
  | .unrecYF _ _ => true
  | .unrecOp2 _ => true
  | .unrecOp3 _ => true
  | .unrecOp4 _ => true
  | .unrecOp5 _ => true
  | .unrecOp8 _ => true
  | .unrecOp9 _ => true
  | .unrecOpB _ => true
  | .unrecOpC _ => true
  | .unrecOpE _ => true
  | .unrecOpF _ => true

/-- The instruction the decoder reads from a table word: bit 0 of `w` is the least significant bit of the word, bits from
`nbits` up are 0, and the word's two bytes are laid out high-order byte first (R54) before they are decoded. -/
def decodeTableWord (nbits w : Nat) : Option Instr :=
  let word : Word := BitVec.ofNat 16 (w % 2 ^ nbits)
  match decodeBytes [hiByte word, loByte word] with
  | .ok (i, _) => some i
  | .error _ => none

end Sys2Proof
end

