-- ==== Sys2Proof/Machine/State.lean ====
section
/-! DEFINITION. The complete state of the core (10_state.md R20), its reset value (R41), and why a step can stop.
The hardware has no other state (R20, R40, R42): the diagnostic log, the host's protocol phase and its clock are outside it. -/

namespace Sys2Proof.Machine

/-- The two fault causes (60_exceptions.md R170). Code 3 of the latch is never written (R36), so no value stands for it (U15). -/
inductive FaultCause where
  /-- Code 1: the fetch of a step with `pc + 1 > 0xFFF` (R171). -/
  | fetchBounds
  /-- Code 2: a DRW with `N >= 1` and `I + N - 1 > 0xFFF` (R172). -/
  | spriteBounds
  deriving DecidableEq, Repr

/-- The 2-bit code of the `fault` latch (R36): 0 `None`, 1 `FetchBounds`, 2 `SpriteBounds`. -/
def FaultCause.code : Option FaultCause → BitVec 2
  | none => 0
  | some .fetchBounds => 1
  | some .spriteBounds => 2

/-- `memory` (R50) as (address, byte) pairs in one canonical form, `Memory.wf` of Machine/Ops.lean. -/
abbrev Memory := List Host.Cell

/-- What an unlisted address reads as: 0x00, the reset contents of every byte (R41, R60). -/
def Memory.unlisted : Byte := 0x00#8

/-- `display`: row 0 is the top row; column `c` is bit `63 - c` of its row (R31, R33). -/
abbrev Display := Vector RowWord 32

/-- The state of the core (R20). The field names are the spec's (R11). -/
structure State where
  /-- 4096 bytes (R50). -/
  memory : Memory
  /-- `program_counter` (R24). -/
  pc : Word
  /-- `index_register` (R28). -/
  I : Word
  /-- V0 to VF; VF is `V[15]` and nothing more (R21, R23). -/
  V : Vector Byte 16
  /-- `delay_timer`, inert (R30). -/
  DT : Byte
  /-- `sound_timer`, inert (R30). -/
  ST : Byte
  /-- 32 rows of 64 pixels (R31). -/
  display : Display
  /-- Set by CLS and DRW, cleared by the host's acknowledge (R35). -/
  needsRedraw : Bool
  /-- The sticky cause latch; `none` is the spec's own value `None` (R36). -/
  fault : Option FaultCause
  deriving DecidableEq, Repr

/-- Every element zero, `pc` at 0x200, no fault (R41, R200). -/
def State.reset : State where
  memory := []
  pc := 0x200#16
  I := 0x0000#16
  V := Vector.replicate 16 0x00#8
  DT := 0x00#8
  ST := 0x00#8
  display := Vector.replicate 32 0x0000000000000000#64
  needsRedraw := false
  fault := none

/-- Why a step answers no next state. -/
inductive Fault where
  /-- Raised by `step` alone, at a state whose `fault` latch is set: "a state whose `fault` is not `None` has no step" (R15,
  R173). Safe: the halted core changes nothing until reset, and the model goes no further (log entry 1). -/
  | halted (cause : FaultCause)
  deriving DecidableEq, Repr

/-- Why an instruction has no meaning in the model. -/
inductive Refusal where
  /-- An arm of `exec` that is not modelled yet; no arm raises it. Safe. -/
  | notModelled (mnemonic : String)
  deriving DecidableEq, Repr

end Sys2Proof.Machine
end

