-- ==== Sys2Proof/Machine/Ops.lean ====
section
/-! DEFINITION. The named operations over memory, registers and the display, the fetch (20_memory.md R52, R53), and raising a
fault (00_scope.md R13). There is no return from a fault: "the only exit from the halted state is `reset`" (R176). -/

namespace Sys2Proof.Machine

/-! ### Memory (R12, R50) -/

/-- The byte an address of the list holds. A caller has checked `a <= 0xFFF` first (R12). -/
def Memory.byteAt : Memory → Nat → Byte
  | [], _ => Memory.unlisted
  | (k, b) :: m, a => if k = a then b else Memory.byteAt m a

/-- Put one byte, keeping the canonical form: writing the unlisted value removes the entry. -/
def Memory.write : Memory → Nat → Byte → Memory
  | [], a, b => if b = Memory.unlisted then [] else [(a, b)]
  | (k, c) :: m, a, b =>
    if a < k then (if b = Memory.unlisted then (k, c) :: m else (a, b) :: (k, c) :: m)
    else if a = k then (if b = Memory.unlisted then m else (a, b) :: m)
    else (k, c) :: Memory.write m a b

/-- Put consecutive bytes from address `a` upward (`MemWrite` of R12; only the host's loader uses it). -/
def Memory.writeBytes : Memory → Nat → List Byte → Memory
  | m, _, [] => m
  | m, a, b :: bs => Memory.writeBytes (Memory.write m a b) (a + 1) bs

/-- Every listed address is at least `lo`, inside the address space, above the one before it, and holds no unlisted value. -/
def Memory.wfFrom : Nat → Memory → Bool
  | _, [] => true
  | lo, (k, b) :: m =>
    decide (lo ≤ k) && decide (k < Config.memSize) && decide (b ≠ Memory.unlisted) && Memory.wfFrom (k + 1) m

/-- The canonical form: addresses strictly rising in 0x000 to 0xFFF, no entry equal to what an unlisted address reads as. -/
def Memory.wf (m : Memory) : Bool := Memory.wfFrom 0 m

/-- An address is valid exactly when it is in 0x000 to 0xFFF (R50). -/
def validAddress (a : Nat) : Bool := decide (a ≤ Config.memTop)

/-- `MemRead(addr, 1)` (R12): the byte at a valid address, nothing at any other. -/
def State.memRead (s : State) (a : Nat) : Option Byte :=
  if validAddress a then some (s.memory.byteAt a) else none

/-! ### Registers (R11, R21) -/

/-- Every 4-bit register number names a register (R21). -/
def regIndex (x : Nibble) : Fin 16 := ⟨x.toNat, x.isLt⟩

/-- The register number of VF (R23). -/
def regVF : Nibble := 0xF#4

/-- `V[x]` (R11). -/
def State.readV (s : State) (x : Nibble) : Byte := s.V[(regIndex x).val]

/-- `V[x] <- b` (R11). -/
def State.writeV (s : State) (x : Nibble) (b : Byte) : State := { s with V := s.V.set (regIndex x).val b }

/-- `pc <- t` (R11). -/
def State.setPc (s : State) (t : Word) : State := { s with pc := t }

/-- `I <- v` (R11). -/
def State.setI (s : State) (v : Word) : State := { s with I := v }

/-- All of `memory`; the loader alone writes it (R58). -/
def State.setMemory (s : State) (m : Memory) : State := { s with memory := m }

/-- All of `display`. -/
def State.setDisplay (s : State) (d : Display) : State := { s with display := d }

/-- `needs_redraw <- b` (R35). -/
def State.setNeedsRedraw (s : State) (b : Bool) : State := { s with needsRedraw := b }

/-- `fault <- c` (R36). -/
def State.setFault (s : State) (c : Option FaultCause) : State := { s with fault := c }

/-! ### Display (R31, R33) -/

/-- Bit position of a column in its row word: column 0 is bit 63 (R33). -/
def columnBit (c : Fin 64) : Nat := 63 - c.val

/-- `pixel(r, c) = display[r][63 - c]` (R33). -/
def Display.pixel (d : Display) (r : Fin 32) (c : Fin 64) : Bool := d[r.val].getLsbD (columnBit c)

/-- `pixel(r, c)` of a state (R33). -/
def State.pixel (s : State) (r : Fin 32) (c : Fin 64) : Bool := Display.pixel s.display r c

/-- A display with every pixel off (R32). -/
def blankDisplay : Display := Vector.replicate 32 0x0000000000000000#64

/-! ### Faults (R13, R173) -/

/-- `raise Fault(cause)`: the step ends with `fault <- cause` and no other change; what the rule that raises it says has
already happened stands (R13). Fault entry saves nothing and goes nowhere (R173). -/
def raiseFault (cause : FaultCause) (s : State) : Host.Outcome State Fault Refusal := .next (s.setFault (some cause))

/-- A halted core has no step (R15, R173): no next state; `step` of the input port is ignored (Machine/Ports.lean). -/
def haltedStep (cause : FaultCause) (_s : State) : Host.Outcome State Fault Refusal := .fault (.halted cause)

/-! ### Fetch (R52, R53) -/

/-- A fetch is legal exactly when `pc + 1 <= 0xFFF`, the sum unbounded (R53, D15). -/
def fetchLegal (s : State) : Bool := decide (s.pc.toNat + 1 ≤ Config.memTop)

/-- The two bytes at `pc` and `pc + 1`, first byte high-order (R52). -/
def fetchedWord (s : State) : Word :=
  wordOfBytes (s.memory.byteAt s.pc.toNat) (s.memory.byteAt (s.pc.toNat + 1))

/-- The fetch of R52: the word, and the state with `pc` advanced by 2; nothing when it is out of bounds (R53). -/
def fetch (s : State) : Option (Word × State) :=
  if fetchLegal s then some (fetchedWord s, s.setPc (s.pc + 2#16)) else none

/-- `s` made ready to fetch at its `pc`: no fault latched, and a `pc` that a fetch can use (0x200 where it is out of bounds). -/
def fetchReady (s : State) : State :=
  let s := s.setFault none
  if fetchLegal s then s else s.setPc 0x200#16

/-- The two bytes of a word stored where the next fetch reads, high-order byte first (R54). -/
def storeFetchWord (s : State) (w : Word) : State :=
  s.setMemory (s.memory.writeBytes s.pc.toNat [hiByte w, loByte w])

end Sys2Proof.Machine
end

