-- ==== Sys2Proof/Machine/ClearScreen.lean ====
section
/-! DEFINITION. Category 0x0: CLS (40_cls.md R100). -/

namespace Sys2Proof.Machine

/-- `CLS`: every row 0, `needs_redraw` set whether or not a pixel changed; the ignored nibbles change nothing (R100). -/
def execCls (_n2 _n4 : Nibble) (s : State) : Host.Outcome State Fault Refusal :=
  .next ((s.setDisplay blankDisplay).setNeedsRedraw true)

end Sys2Proof.Machine
end

