-- ==== Sys2Proof/Machine/Operands.lean ====
section
/-! DEFINITION. The operand forms (30_encoding.md R83): a register number, an 8-bit immediate, a 12-bit address
zero-extended to 16 bits, a sprite height, and the sprite bytes at `I` (R57). There is no sign, scale or offset anywhere. -/

namespace Sys2Proof.Machine

/-- `zext_16(NNN)`: the upper four bits are zero (R83, D25). -/
def addressOperand (nnn : Addr12) : Word := nnn.zeroExtend 16

/-- `KK`, used at 8 bits (R83). -/
def byteOperand (kk : Byte) : Byte := kk

/-- `N`, a count of rows 0 to 15 (R83). -/
def heightOperand (n : Nibble) : Nat := n.toNat

/-- A start coordinate: the register's value as an unsigned number 0 to 255, not yet reduced (R141). -/
def coordinateOperand (s : State) (x : Nibble) : Nat := (s.readV x).toNat

/-- Row `y` of the sprite: the byte at `I + y`, the sum unbounded (R57). Read only after `spriteInBounds`. -/
def spriteByte (s : State) (y : Nat) : Byte := s.memory.byteAt (s.I.toNat + y)

/-- The bounds check of R144: `N = 0` reads nothing; otherwise `I + N - 1 <= 0xFFF`, the sum unbounded. -/
def spriteInBounds (s : State) (n : Nibble) : Bool :=
  decide (heightOperand n = 0) || decide (s.I.toNat + heightOperand n - 1 ≤ Config.memTop)

end Sys2Proof.Machine
end

