-- ==== Sys2Proof/Machine/Jump.lean ====
section
/-! DEFINITION. Category 0x1: the absolute jump (41_jump.md R110). -/

namespace Sys2Proof.Machine

/-- `JP addr`: `pc <- zext_16(NNN)`; the target is not checked here (R110). -/
def execJpAddr (nnn : Addr12) (s : State) : Host.Outcome State Fault Refusal :=
  .next (s.setPc (addressOperand nnn))

end Sys2Proof.Machine
end

