-- ==== Sys2Proof/Machine/Flags.lean ====
section
/-! DEFINITION. The one flag-like value and the one sum of the core. There is no condition-code register (10_state.md R39);
ADD produces no carry (42_register_immediate.md R125). -/

namespace Sys2Proof.Machine

/-- The collision result DRW writes to VF: the 8-bit value 0x00 or 0x01 (R142). -/
def collisionFlag (collision : Bool) : Byte := if collision then 0x01#8 else 0x00#8

/-- `(a + b) mod 256`; the carry out of bit 7 is discarded and recorded nowhere (R124, R130). -/
def add8 (a b : Byte) : Byte := a + b

end Sys2Proof.Machine
end

