-- ==== Sys2Proof/Machine/RegisterImmediate.lean ====
section
/-! DEFINITION. Categories 0x6, 0x7 and 0xA: register and index loads, the 8-bit add (42_register_immediate.md). -/

namespace Sys2Proof.Machine

/-- `LD Vx, byte`: `V[X] <- KK` (R120). -/
def execLdVxByte (x : Nibble) (kk : Byte) (s : State) : Host.Outcome State Fault Refusal :=
  .next (s.writeV x (byteOperand kk))

/-- `ADD Vx, byte`: `V[X] <- (V[X] + KK) mod 256`; VF is written only as the destination (R124, R125). -/
def execAddVxByte (x : Nibble) (kk : Byte) (s : State) : Host.Outcome State Fault Refusal :=
  .next (s.writeV x (add8 (s.readV x) (byteOperand kk)))

/-- `LD I, addr`: `I <- zext_16(NNN)` (R128). -/
def execLdIAddr (nnn : Addr12) (s : State) : Host.Outcome State Fault Refusal :=
  .next (s.setI (addressOperand nnn))

end Sys2Proof.Machine
end

