-- ==== Sys2Proof/Machine/SpriteDraw.lean ====
section
/-! DEFINITION. Category 0xD: the sprite compositor (43_sprite_draw.md R140 to R149). The meaning follows the pixel loop of
R140; the row-at-a-time form of R145 stands beside it, to be proved equal. -/

namespace Sys2Proof.Machine

/-- The display row of sprite row `y`: `(y0 + y) mod 32` (R141). -/
def targetRow (y0 y : Nat) : Fin 32 := ⟨(y0 + y) % 32, Nat.mod_lt _ (by decide)⟩

/-- The display column of sprite column `x`: `(x0 + x) mod 64` (R141). -/
def targetColumn (x0 x : Nat) : Fin 64 := ⟨(x0 + x) % 64, Nat.mod_lt _ (by decide)⟩

/-- `sprite_bit = b[7 - x]`: the most significant bit is the leftmost pixel (R140, R54). -/
def spriteBit (b : Byte) (x : Nat) : Bool := b.getLsbD (7 - x)

/-- Give bit `p` of a row word the value `v`. -/
def setRowBit (w : RowWord) (p : Nat) (v : Bool) : RowWord :=
  if v then w ||| (1#64 <<< p) else w &&& ~~~(1#64 <<< p)

/-- What the loop of R140 changes: the display and the collision so far. -/
structure Canvas where
  display : Display
  collision : Bool
  deriving DecidableEq, Repr

/-- The body of the inner loop of R140, for one sprite column `x` of the sprite row `b`. -/
def drawPixel (x0 : Nat) (r : Fin 32) (b : Byte) (k : Canvas) (x : Nat) : Canvas :=
  let p := columnBit (targetColumn x0 x)
  let old := k.display[r.val].getLsbD p
  let bit := spriteBit b x
  { display := k.display.set r.val (setRowBit k.display[r.val] p (old ^^ bit))
    collision := k.collision || (bit && old) }

/-- The inner loop of R140: the 8 columns of one sprite row. -/
def drawRow (x0 : Nat) (r : Fin 32) (b : Byte) (k : Canvas) : Canvas :=
  (List.range 8).foldl (drawPixel x0 r b) k

/-- The outer loop of R140: the rows `0 .. n-1` of the sprite whose row `y` is `bytes y`. -/
def drawSprite (x0 y0 n : Nat) (bytes : Nat → Byte) (k : Canvas) : Canvas :=
  (List.range n).foldl (fun k y => drawRow x0 (targetRow y0 y) (bytes y) k) k

/-- `DRW Vx, Vy, n`: the coordinates are read before VF is written (R143); the bounds are checked once, before any change
(R144); the rows of the sprite are XORed onto the display; VF and `needs_redraw` are written last (R140). -/
def execDrwVxVyN (x y n : Nibble) (s : State) : Host.Outcome State Fault Refusal :=
  if spriteInBounds s n then
    let k := drawSprite (coordinateOperand s x) (coordinateOperand s y) (heightOperand n) (spriteByte s) ⟨s.display, false⟩
    .next (((s.setDisplay k.display).writeV regVF (collisionFlag k.collision)).setNeedsRedraw true)
  else raiseFault .spriteBounds s

/-! ### The row-at-a-time form (R145) -/

/-- `ror64(v, k)` for `0 <= k <= 63` (R145). -/
def ror64 (v : RowWord) (k : Nat) : RowWord := if k = 0 then v else (v >>> k) ||| (v <<< (64 - k))

/-- The sprite byte in the top eight bits of the row word, rotated right by the start column (R145). -/
def rowMask (x0 : Nat) (b : Byte) : RowWord := ror64 (b.zeroExtend 64 <<< 56) (x0 % 64)

/-- The body of the loop of R145. -/
def drawRowWord (x0 : Nat) (r : Fin 32) (b : Byte) (k : Canvas) : Canvas :=
  { display := k.display.set r.val (k.display[r.val] ^^^ rowMask x0 b)
    collision := k.collision || decide (k.display[r.val] &&& rowMask x0 b ≠ 0#64) }

/-- The loop of R145. -/
def drawSpriteRows (x0 y0 n : Nat) (bytes : Nat → Byte) (k : Canvas) : Canvas :=
  (List.range n).foldl (fun k y => drawRowWord x0 (targetRow y0 y) (bytes y) k) k

end Sys2Proof.Machine
end

