-- ==== Sys2Proof/Machine/Unrecognized.lean ====
section
/-! DEFINITION. Every other word: skip and continue (44_unrecognized.md R160). The skip changes no state; its diagnostic
event is an output of the step, not state (R14, D14): `emitted` below, read by the `diag_out` port of Machine/Ports.lean. -/

namespace Sys2Proof.Machine

/-- The event `Unrecognized(w, a)`: the word and the address it was fetched from (R14). -/
structure DiagEvent where
  word : Word
  address : Word
  deriving DecidableEq, Repr

/-- The event the execute phase of `i` emits; `a = pc - 2` at this point, in 16-bit arithmetic (R160). -/
def emitted (i : Instr) (s : State) : Option DiagEvent :=
  if i.isUnrecognized then some ⟨encode i, s.pc - 2#16⟩ else none

/-- "No state mutation ... execution continues at the already-advanced `program_counter`" (R160). -/
def skipUnrecognized (s : State) : Host.Outcome State Fault Refusal := .next s

/-- A word of category 0x0 with 3rd nibble 0x0 is skipped (R87 (a), R160). -/
def execUnrecY0 (_n2 _n4 : Nibble) (s : State) : Host.Outcome State Fault Refusal := skipUnrecognized s

/-- A word of category 0x0 with 3rd nibble 0x1 is skipped (R87 (a), R160). -/
def execUnrecY1 (_n2 _n4 : Nibble) (s : State) : Host.Outcome State Fault Refusal := skipUnrecognized s

/-- A word of category 0x0 with 3rd nibble 0x2 is skipped (R87 (a), R160). -/
def execUnrecY2 (_n2 _n4 : Nibble) (s : State) : Host.Outcome State Fault Refusal := skipUnrecognized s

/-- A word of category 0x0 with 3rd nibble 0x3 is skipped (R87 (a), R160). -/
def execUnrecY3 (_n2 _n4 : Nibble) (s : State) : Host.Outcome State Fault Refusal := skipUnrecognized s

/-- A word of category 0x0 with 3rd nibble 0x4 is skipped (R87 (a), R160). -/
def execUnrecY4 (_n2 _n4 : Nibble) (s : State) : Host.Outcome State Fault Refusal := skipUnrecognized s

/-- A word of category 0x0 with 3rd nibble 0x5 is skipped (R87 (a), R160). -/
def execUnrecY5 (_n2 _n4 : Nibble) (s : State) : Host.Outcome State Fault Refusal := skipUnrecognized s

/-- A word of category 0x0 with 3rd nibble 0x6 is skipped (R87 (a), R160). -/
def execUnrecY6 (_n2 _n4 : Nibble) (s : State) : Host.Outcome State Fault Refusal := skipUnrecognized s

/-- A word of category 0x0 with 3rd nibble 0x7 is skipped (R87 (a), R160). -/
def execUnrecY7 (_n2 _n4 : Nibble) (s : State) : Host.Outcome State Fault Refusal := skipUnrecognized s

/-- A word of category 0x0 with 3rd nibble 0x8 is skipped (R87 (a), R160). -/
def execUnrecY8 (_n2 _n4 : Nibble) (s : State) : Host.Outcome State Fault Refusal := skipUnrecognized s

/-- A word of category 0x0 with 3rd nibble 0x9 is skipped (R87 (a), R160). -/
def execUnrecY9 (_n2 _n4 : Nibble) (s : State) : Host.Outcome State Fault Refusal := skipUnrecognized s

/-- A word of category 0x0 with 3rd nibble 0xA is skipped (R87 (a), R160). -/
def execUnrecYA (_n2 _n4 : Nibble) (s : State) : Host.Outcome State Fault Refusal := skipUnrecognized s

/-- A word of category 0x0 with 3rd nibble 0xB is skipped (R87 (a), R160). -/
def execUnrecYB (_n2 _n4 : Nibble) (s : State) : Host.Outcome State Fault Refusal := skipUnrecognized s

/-- A word of category 0x0 with 3rd nibble 0xC is skipped (R87 (a), R160). -/
def execUnrecYC (_n2 _n4 : Nibble) (s : State) : Host.Outcome State Fault Refusal := skipUnrecognized s

/-- A word of category 0x0 with 3rd nibble 0xD is skipped (R87 (a), R160). -/
def execUnrecYD (_n2 _n4 : Nibble) (s : State) : Host.Outcome State Fault Refusal := skipUnrecognized s

/-- A word of category 0x0 with 3rd nibble 0xF is skipped (R87 (a), R160). -/
def execUnrecYF (_n2 _n4 : Nibble) (s : State) : Host.Outcome State Fault Refusal := skipUnrecognized s

/-- A word of category 0x2 is skipped (R87 (b), R160). -/
def execUnrecOp2 (_rest : Addr12) (s : State) : Host.Outcome State Fault Refusal := skipUnrecognized s

/-- A word of category 0x3 is skipped (R87 (b), R160). -/
def execUnrecOp3 (_rest : Addr12) (s : State) : Host.Outcome State Fault Refusal := skipUnrecognized s

/-- A word of category 0x4 is skipped (R87 (b), R160). -/
def execUnrecOp4 (_rest : Addr12) (s : State) : Host.Outcome State Fault Refusal := skipUnrecognized s

/-- A word of category 0x5 is skipped (R87 (b), R160). -/
def execUnrecOp5 (_rest : Addr12) (s : State) : Host.Outcome State Fault Refusal := skipUnrecognized s

/-- A word of category 0x8 is skipped (R87 (b), R160). -/
def execUnrecOp8 (_rest : Addr12) (s : State) : Host.Outcome State Fault Refusal := skipUnrecognized s

/-- A word of category 0x9 is skipped (R87 (b), R160). -/
def execUnrecOp9 (_rest : Addr12) (s : State) : Host.Outcome State Fault Refusal := skipUnrecognized s

/-- A word of category 0xB is skipped (R87 (b), R160). -/
def execUnrecOpB (_rest : Addr12) (s : State) : Host.Outcome State Fault Refusal := skipUnrecognized s

/-- A word of category 0xC is skipped (R87 (b), R160). -/
def execUnrecOpC (_rest : Addr12) (s : State) : Host.Outcome State Fault Refusal := skipUnrecognized s

/-- A word of category 0xE is skipped (R87 (b), R160). -/
def execUnrecOpE (_rest : Addr12) (s : State) : Host.Outcome State Fault Refusal := skipUnrecognized s

/-- A word of category 0xF is skipped (R87 (b), R160). -/
def execUnrecOpF (_rest : Addr12) (s : State) : Host.Outcome State Fault Refusal := skipUnrecognized s

end Sys2Proof.Machine
end

