-- ==== Sys2Proof/Machine/Dispatch.lean ====
section
/-! DEFINITION. Dispatch: the execute phase, one arm per constructor of Instr (30_encoding.md R84). -/

namespace Sys2Proof.Machine

/-- The execute phase of one instruction; the fetch has already advanced `pc` by 2 (20_memory.md R52). -/
def exec (i : Instr) (s : State) : Host.Outcome State Fault Refusal :=
  match i with
  | .cls n2 n4 => Sys2Proof.Machine.execCls n2 n4 s
  | .jpAddr nnn => Sys2Proof.Machine.execJpAddr nnn s
  | .ldVxByte x kk => Sys2Proof.Machine.execLdVxByte x kk s
  | .addVxByte x kk => Sys2Proof.Machine.execAddVxByte x kk s
  | .ldIAddr nnn => Sys2Proof.Machine.execLdIAddr nnn s
  | .drwVxVyN x y n => Sys2Proof.Machine.execDrwVxVyN x y n s
  | .unrecY0 n2 n4 => Sys2Proof.Machine.execUnrecY0 n2 n4 s
  | .unrecY1 n2 n4 => Sys2Proof.Machine.execUnrecY1 n2 n4 s
  | .unrecY2 n2 n4 => Sys2Proof.Machine.execUnrecY2 n2 n4 s
  | .unrecY3 n2 n4 => Sys2Proof.Machine.execUnrecY3 n2 n4 s
  | .unrecY4 n2 n4 => Sys2Proof.Machine.execUnrecY4 n2 n4 s
  | .unrecY5 n2 n4 => Sys2Proof.Machine.execUnrecY5 n2 n4 s
  | .unrecY6 n2 n4 => Sys2Proof.Machine.execUnrecY6 n2 n4 s
  | .unrecY7 n2 n4 => Sys2Proof.Machine.execUnrecY7 n2 n4 s
  | .unrecY8 n2 n4 => Sys2Proof.Machine.execUnrecY8 n2 n4 s
  | .unrecY9 n2 n4 => Sys2Proof.Machine.execUnrecY9 n2 n4 s
  | .unrecYA n2 n4 => Sys2Proof.Machine.execUnrecYA n2 n4 s
  | .unrecYB n2 n4 => Sys2Proof.Machine.execUnrecYB n2 n4 s
  | .unrecYC n2 n4 => Sys2Proof.Machine.execUnrecYC n2 n4 s
  | .unrecYD n2 n4 => Sys2Proof.Machine.execUnrecYD n2 n4 s
  | .unrecYF n2 n4 => Sys2Proof.Machine.execUnrecYF n2 n4 s
  | .unrecOp2 rest => Sys2Proof.Machine.execUnrecOp2 rest s
  | .unrecOp3 rest => Sys2Proof.Machine.execUnrecOp3 rest s
  | .unrecOp4 rest => Sys2Proof.Machine.execUnrecOp4 rest s
  | .unrecOp5 rest => Sys2Proof.Machine.execUnrecOp5 rest s
  | .unrecOp8 rest => Sys2Proof.Machine.execUnrecOp8 rest s
  | .unrecOp9 rest => Sys2Proof.Machine.execUnrecOp9 rest s
  | .unrecOpB rest => Sys2Proof.Machine.execUnrecOpB rest s
  | .unrecOpC rest => Sys2Proof.Machine.execUnrecOpC rest s
  | .unrecOpE rest => Sys2Proof.Machine.execUnrecOpE rest s
  | .unrecOpF rest => Sys2Proof.Machine.execUnrecOpF rest s

end Sys2Proof.Machine
end

