-- ==== Sys2Proof/Machine/Step.lean ====
section
/-! DEFINITION. One step: fetch, decode, execute (00_scope.md R15, 20_memory.md R52, R53). -/

namespace Sys2Proof.Machine

/-- One step. A halted core has none (R15); a fetch out of bounds raises `FetchBounds` before anything is read (R171);
otherwise the fetched word is decoded and executed with `pc` already advanced (R52). -/
def step (s : State) : Host.Outcome State Fault Refusal :=
  match s.fault with
  | some cause => haltedStep cause s
  | none =>
    match fetch s with
    | none => raiseFault .fetchBounds s
    | some (w, s') => exec (decode w) s'

/-- `s` with an instruction stored where `step` fetches next. The fetch needs an unlatched `fault` and a `pc` in bounds, so
those are set where they are not (log entry 11); nothing else changes. The bits of `w` from `nbits` up are 0. -/
def State.withFetchWord (s : State) (nbits w : Nat) : State :=
  storeFetchWord (fetchReady s) (BitVec.ofNat 16 (w % 2 ^ nbits))

end Sys2Proof.Machine
end

