-- ==== Sys2Proof/Machine/Assembler.lean ====
section
/-! DEFINITION. The spec's own assembler syntax, directives and disassembly (30_encoding.md R91 to R93, D22). The source is a
list of items, which `parseSource` reads from its text. -/

namespace Sys2Proof.Machine

/-- An `addr` operand: a number, or a label (R91, R92). -/
inductive AsmTarget where
  | number (n : Nat)
  | label (name : String)
  deriving DecidableEq, Repr

/-- One item of a source program (R91, R92). -/
inductive AsmItem where
  /-- `name:`, the address of the next byte placed. -/
  | label (name : String)
  | cls
  | jp (addr : AsmTarget)
  | ldV (x byte : Nat)
  | addV (x byte : Nat)
  | ldI (addr : AsmTarget)
  | drw (x y n : Nat)
  /-- `DB b, ...` -/
  | db (bytes : List Nat)
  /-- `DW w`, high byte first. -/
  | dw (w : Nat)
  deriving DecidableEq, Repr

/-- The bytes an item places (R80, R92). -/
def AsmItem.size : AsmItem → Nat
  | .label _ => 0
  | .cls => 2
  | .jp _ => 2
  | .ldV _ _ => 2
  | .addV _ _ => 2
  | .ldI _ => 2
  | .drw _ _ _ => 2
  | .db bytes => bytes.length
  | .dw _ => 2

/-- The labels of a program with their addresses, the first byte placed at `a` (R92). -/
def asmLabels : Nat → List AsmItem → List (String × Nat)
  | _, [] => []
  | a, .label name :: rest => (name, a) :: asmLabels a rest
  | a, item :: rest => asmLabels (a + item.size) rest

/-- The address a target names; none for a label that is not defined. -/
def AsmTarget.resolve (labels : List (String × Nat)) : AsmTarget → Option Nat
  | .number n => some n
  | .label name => labels.lookup name

/-- An address operand as a field; none where it is out of range (R91). -/
def addressField (n : Nat) : Option Addr12 := if isAddress n then some (BitVec.ofNat 12 n) else none

/-- The bytes of an item; none where an operand is out of the range R91 gives it or a label is not defined. -/
def AsmItem.bytes (labels : List (String × Nat)) : AsmItem → Option (List Byte)
  | .label _ => some []
  | .cls => some (encodeBytes (.cls 0 0))
  | .jp addr => ((addr.resolve labels).bind addressField).map fun nnn => encodeBytes (.jpAddr nnn)
  | .ldV x byte =>
    if isRegNumber x && isByte byte then some (encodeBytes (.ldVxByte (BitVec.ofNat 4 x) (BitVec.ofNat 8 byte))) else none
  | .addV x byte =>
    if isRegNumber x && isByte byte then some (encodeBytes (.addVxByte (BitVec.ofNat 4 x) (BitVec.ofNat 8 byte))) else none
  | .ldI addr => ((addr.resolve labels).bind addressField).map fun nnn => encodeBytes (.ldIAddr nnn)
  | .drw x y n =>
    if isRegNumber x && isRegNumber y && isHeight n then
      some (encodeBytes (.drwVxVyN (BitVec.ofNat 4 x) (BitVec.ofNat 4 y) (BitVec.ofNat 4 n)))
    else none
  | .db bytes => if bytes.all isByte then some (bytes.map (BitVec.ofNat 8)) else none
  | .dw w => if isWord w then some [hiByte (BitVec.ofNat 16 w), loByte (BitVec.ofNat 16 w)] else none

/-- The bytes of all the items, in order. -/
def asmBytes (labels : List (String × Nat)) : List AsmItem → Option (List Byte)
  | [] => some []
  | item :: rest =>
    match item.bytes labels, asmBytes labels rest with
    | some here, some after => some (here ++ after)
    | _, _ => none

/-- Assemble a program whose first byte is at 0x200; none where an item is ill formed, a label is defined twice, or the
image is over 3584 bytes (R92, R204; log entry 14). -/
def assemble (program : List AsmItem) : Option (List Byte) :=
  let labels := asmLabels Config.entry program
  if (labels.map Prod.fst).Nodup then
    match asmBytes labels program with
    | some image => if isImage image then some image else none
    | none => none
  else none

/-! ### The text of a source program (R91, R92; log entry 14) -/

/-- A word of the text, as its characters. -/
abbrev AsmToken := List Char

/-- The value of a hexadecimal digit. -/
def digitValue (c : Char) : Option Nat :=
  let k := c.toNat
  if 48 ≤ k ∧ k ≤ 57 then some (k - 48)
  else if 65 ≤ k ∧ k ≤ 70 then some (k - 55)
  else if 97 ≤ k ∧ k ≤ 102 then some (k - 87)
  else none

/-- The value of digits in a base, after the value `acc` of the digits before them. -/
def digitsValue (base : Nat) : Nat → List Char → Option Nat
  | acc, [] => some acc
  | acc, c :: cs =>
    match digitValue c with
    | some d => if d < base then digitsValue base (acc * base + d) cs else none
    | none => none

/-- A number in C style, `0x2A` or `42` (R91). A decimal number does not begin with a 0 before other digits. -/
def parseNumber (t : AsmToken) : Option Nat :=
  match t with
  | [] => none
  | ['0'] => some 0
  | '0' :: 'x' :: c :: cs => digitsValue 16 0 (c :: cs)
  | c :: cs => if c = '0' then none else digitsValue 10 0 (c :: cs)

/-- A register name, `V0` to `V9` or `VA` to `VF` (R91). -/
def parseRegister (t : AsmToken) : Option Nat :=
  match t with
  | ['V', d] => if d.toNat ≤ 70 then digitValue d else none
  | _ => none

/-- A label's name begins with a letter or an underscore. -/
def isLabelName (t : AsmToken) : Bool :=
  match t with
  | [] => false
  | c :: _ => c.isAlpha || c = '_'

/-- An `addr` operand: a number where it begins with a digit, else a label. -/
def parseTarget (t : AsmToken) : Option AsmTarget :=
  match t with
  | [] => none
  | c :: _ =>
    if 48 ≤ c.toNat ∧ c.toNat ≤ 57 then (parseNumber t).map AsmTarget.number
    else if isLabelName t then some (.label (String.ofList t)) else none

/-- The words of a line before its comment: blanks separate them, a comma and a colon are words of their own, and a
semicolon begins the comment. `word` is the word being read, last character first. -/
def tokens : AsmToken → List Char → List AsmToken
  | word, [] => if word = [] then [] else [word.reverse]
  | word, c :: cs =>
    let before := if word = [] then [] else [word.reverse]
    if c = ';' then before
    else if c = ' ' ∨ c = '\t' ∨ c = '\r' then before ++ tokens [] cs
    else if c = ',' ∨ c = ':' then before ++ [c] :: tokens [] cs
    else tokens (c :: word) cs

/-- The operands of a statement, which commas separate. -/
def operands : List AsmToken → Option (List AsmToken)
  | [] => some []
  | [t] => if t = [','] then none else some [t]
  | t :: comma :: rest =>
    if t = [','] ∨ comma ≠ [','] ∨ rest = [] then none else (operands rest).map (t :: ·)

/-- The numbers of a `DB`. -/
def parseNumbers : List AsmToken → Option (List Nat)
  | [] => some []
  | t :: ts =>
    match parseNumber t, parseNumbers ts with
    | some n, some ns => some (n :: ns)
    | _, _ => none

/-- A statement of one operand: `JP addr`, `DW w`. R92 does not say in which operands a label may stand. DESIGN CHOICE (log
entry 14): in the `addr` operand of JP and of LD I, and in no other. -/
def parseOne (op a : AsmToken) : Option AsmItem :=
  if op = ['J', 'P'] then (parseTarget a).map AsmItem.jp
  else if op = ['D', 'W'] then (parseNumber a).map AsmItem.dw
  else none

/-- A statement of two operands: `LD I, addr`, `LD Vx, byte`, `ADD Vx, byte`; the two `LD` forms are told apart by their
first operand (R91). The `addr` operand may be a label, a `byte` may not (log entry 14). -/
def parseTwo (op a b : AsmToken) : Option AsmItem :=
  if op = ['L', 'D'] ∧ a = ['I'] then (parseTarget b).map AsmItem.ldI
  else match parseRegister a, parseNumber b with
    | some x, some k => if op = ['L', 'D'] then some (.ldV x k) else if op = ['A', 'D', 'D'] then some (.addV x k) else none
    | _, _ => none

/-- A statement of three operands: `DRW Vx, Vy, n`. -/
def parseThree (op a b c : AsmToken) : Option AsmItem :=
  match parseRegister a, parseRegister b, parseNumber c with
  | some x, some y, some n => if op = ['D', 'R', 'W'] then some (.drw x y n) else none
  | _, _, _ => none

/-- A statement from its mnemonic and operands (R91, R92). -/
def parseStatement (op : AsmToken) (args : List AsmToken) : Option AsmItem :=
  if op = ['D', 'B'] then (if args = [] then none else (parseNumbers args).map AsmItem.db)
  else match args with
    | [] => if op = ['C', 'L', 'S'] then some .cls else none
    | [a] => parseOne op a
    | [a, b] => parseTwo op a b
    | [a, b, c] => parseThree op a b c
    | _ => none

/-- The statement of a line without its label, or nothing on an empty line. -/
def parseRest : List AsmToken → Option (List AsmItem)
  | [] => some []
  | op :: rest => ((operands rest).bind (parseStatement op)).map fun item => [item]

/-- A line: a label or none, then a statement or none, then a comment or none. -/
def parseLine (line : List Char) : Option (List AsmItem) :=
  match tokens [] line with
  | name :: [':'] :: rest =>
    if isLabelName name then (parseRest rest).map (AsmItem.label (String.ofList name) :: ·) else none
  | line => parseRest line

/-- The lines of a text. `line` is the line being read, last character first. -/
def sourceLines : List Char → List Char → List (List Char)
  | line, [] => [line.reverse]
  | line, c :: cs => if c = '\n' then line.reverse :: sourceLines [] cs else sourceLines (c :: line) cs

/-- The items of the lines, in order. -/
def parseLines : List (List Char) → Option (List AsmItem)
  | [] => some []
  | line :: rest =>
    match parseLine line, parseLines rest with
    | some here, some after => some (here ++ after)
    | _, _ => none

/-- The items of a source text; none where a line is ill formed. -/
def parseSource (source : String) : Option (List AsmItem) := parseLines (sourceLines [] source.toList)

/-- Assemble a source text. -/
def assembleSource (source : String) : Option (List Byte) := (parseSource source).bind assemble

/-! ### Disassembly (R93) -/

/-- One hexadecimal digit. -/
def hexDigit (n : Nibble) : Char := if n.toNat < 10 then Char.ofNat (48 + n.toNat) else Char.ofNat (55 + n.toNat)

/-- `V0` to `VF` (R91). -/
def vName (x : Nibble) : String := String.ofList ['V', hexDigit x]

/-- A number of one digit, `0x?`. -/
def hex4 (n : Nibble) : String := String.ofList ['0', 'x', hexDigit n]

/-- A number of two digits, `0x??`. -/
def hex8 (b : Byte) : String := String.ofList ['0', 'x', hexDigit (b.extractLsb' 4 4), hexDigit (b.extractLsb' 0 4)]

/-- A number of three digits, `0x???`. -/
def hex12 (a : Addr12) : String :=
  String.ofList ['0', 'x', hexDigit (a.extractLsb' 8 4), hexDigit (a.extractLsb' 4 4), hexDigit (a.extractLsb' 0 4)]

/-- A number of four digits, `0x????`. -/
def hex16 (w : Word) : String :=
  String.ofList ['0', 'x', hexDigit (fieldOP w), hexDigit (fieldX w), hexDigit (fieldY w), hexDigit (fieldN w)]

/-- The six instructions in the syntax of R91 with their fields in hexadecimal; a CLS whose ignored nibbles are not zero
with the raw word beside it; every other word as `DW 0x????` (R93; log entry 14). -/
def disassemble (i : Instr) : String :=
  match i with
  | .cls n2 n4 => if n2 = 0 ∧ n4 = 0 then "CLS" else "CLS ; " ++ hex16 (encode i)
  | .jpAddr nnn => "JP " ++ hex12 nnn
  | .ldVxByte x kk => "LD " ++ vName x ++ ", " ++ hex8 kk
  | .addVxByte x kk => "ADD " ++ vName x ++ ", " ++ hex8 kk
  | .ldIAddr nnn => "LD I, " ++ hex12 nnn
  | .drwVxVyN x y n => "DRW " ++ vName x ++ ", " ++ vName y ++ ", " ++ hex4 n
  | .unrecY0 _ _ | .unrecY1 _ _ | .unrecY2 _ _ | .unrecY3 _ _ | .unrecY4 _ _
  | .unrecY5 _ _ | .unrecY6 _ _ | .unrecY7 _ _ | .unrecY8 _ _ | .unrecY9 _ _
  | .unrecYA _ _ | .unrecYB _ _ | .unrecYC _ _ | .unrecYD _ _ | .unrecYF _ _
  | .unrecOp2 _ | .unrecOp3 _ | .unrecOp4 _ | .unrecOp5 _ | .unrecOp8 _
  | .unrecOp9 _ | .unrecOpB _ | .unrecOpC _ | .unrecOpE _ | .unrecOpF _ => "DW " ++ hex16 (encode i)

end Sys2Proof.Machine
end

