-- ==== Sys2Proof/Machine/Ports.lean ====
section
/-! DEFINITION. The ports of the core (10_state.md R37, R38), the host protocol over them (60_exceptions.md R180 to R184,
70_reset_and_hazards.md R203, R204), and the host's pacing loop (R214). Nothing here is state of the core. -/

namespace Sys2Proof.Machine

/-! ### Input ports (R37) -/

/-- `reset`: the one reset state, whenever it is applied (R200, D19). -/
def resetPort (_s : State) : State := State.reset

/-- `load(a, b)`: the port addresses 0x200 to 0xFFF only; any other address is refused (R37, R204). -/
def loadPort (a : Nat) (b : Byte) (s : State) : Option State :=
  if Config.entry ≤ a ∧ a ≤ Config.memTop then some (s.setMemory (s.memory.write a b)) else none

/-- `step`: one step; ignored, with no state change, while the core is halted (R37, R173). -/
def stepPort (s : State) : State :=
  match step s with
  | .next t => t
  | .fault _ => s
  | .refused _ => s

/-- `redraw_ack`: clears `needs_redraw` (R37, R181). -/
def redrawAck (s : State) : State := s.setNeedsRedraw false

/-! ### Output ports (R38) -/

/-- `display_out`: the 32 words of `display` (R38). -/
def displayOut (s : State) : Display := s.display

/-- `needs_redraw_out` (R38). -/
def needsRedrawOut (s : State) : Bool := s.needsRedraw

/-- `fault_out`: the 2-bit code of the latch (R36, R38). -/
def faultOut (s : State) : BitVec 2 := FaultCause.code s.fault

/-- `diag_out`: the event of the step taken at `s`, if it emits one (R14, R38, R183). A step that fetches nothing emits nothing (R171). -/
def diagOut (s : State) : Option DiagEvent :=
  match s.fault with
  | some _ => none
  | none =>
    match fetch s with
    | none => none
    | some (w, s') => emitted (decode w) s'

/-- A step's result in the form of R15. -/
inductive StepResult where
  /-- The step completed. -/
  | next (after : State)
  /-- The step raised a fault; `after` holds the cause and whatever else the raising rule states. -/
  | fault (cause : FaultCause) (after : State)
  deriving DecidableEq, Repr

/-- The result of a step in the form of R15; none at a halted core. -/
def stepResult (s : State) : Option StepResult :=
  match step s with
  | .next t =>
    match t.fault with
    | none => some (.next t)
    | some cause => some (.fault cause t)
  | .fault _ => none
  | .refused _ => none

/-! ### The load contract (R203, R204) -/

/-- Reset, then byte `k` of the image at 0x200 + k; an image over 3584 bytes is refused and the core is never started (D10). -/
def loadImage (image : List Byte) : Option State :=
  if isImage image then some (State.reset.setMemory (State.reset.memory.writeBytes Config.entry image)) else none

/-! ### The host protocol (R180) -/

/-- What the host may do at the core's ports, between steps. A stop is the host doing nothing more (R182). -/
inductive HostInput where
  | reset
  | load (a : Nat) (b : Byte)
  | step
  | redrawAck
  deriving DecidableEq, Repr

/-- The core and whether the first `step` since reset has been issued; `load` is usable only before it (R37). -/
structure Session where
  core : State
  started : Bool
  deriving DecidableEq, Repr

/-- The session a reset leaves. -/
def Session.start : Session := ⟨State.reset, false⟩

/-- One host action in the order R180 allows: loads only before the first step, a step only once a pending redraw has been
acknowledged (R181), reset at any time (R184). A forbidden action has no result (D16). -/
def Session.accept (h : Session) : HostInput → Option Session
  | .reset => some ⟨resetPort h.core, false⟩
  | .load a b =>
    if h.started then none
    else match loadPort a b h.core with
      | some s => some ⟨s, false⟩
      | none => none
  | .step => if h.core.needsRedraw then none else some ⟨stepPort h.core, true⟩
  | .redrawAck => some ⟨redrawAck h.core, h.started⟩

/-- A sequence of host actions from a session. -/
def Session.run : Session → List HostInput → Option Session
  | h, [] => some h
  | h, a :: as =>
    match h.accept a with
    | some h' => Session.run h' as
    | none => none

/-! ### The host's scheduler (R214) -/

/-- The scheduler's view: the core, its timestamp in whole milliseconds, and the frames presented so far, oldest first. -/
structure Pacer where
  core : State
  lastStepTime : Nat
  frames : List Display
  deriving DecidableEq, Repr

/-- The scheduler before its first tick; its timestamp is the OPEN `LAST_STEP_TIME_INIT` (D12, log entry 15). -/
def Pacer.start (core : State) : Pacer := ⟨core, Config.lastStepTimeInit, []⟩

/-- The redraw handshake after a step: present and acknowledge when the flag is set (R181). -/
def Pacer.handshake (p : Pacer) : Pacer :=
  if p.core.needsRedraw then { p with core := redrawAck p.core, frames := p.frames ++ [displayOut p.core] } else p

/-- The body of the loop of R214. -/
def Pacer.stepOnce (p : Pacer) : Pacer :=
  Pacer.handshake { p with core := stepPort p.core, lastStepTime := p.lastStepTime + Config.stepIntervalMs }

/-- The loop of R214, for at most `fuel` steps. A clock behind the timestamp gives a difference below the interval: no step. -/
def Pacer.catchUp (now : Nat) : Nat → Pacer → Pacer
  | 0, p => p
  | fuel + 1, p =>
    if now - p.lastStepTime ≥ Config.stepIntervalMs then Pacer.catchUp now fuel p.stepOnce else p

/-- A host tick at time `now` (R214). Every step advances the timestamp by an interval, so `now` steps are always enough. -/
def Pacer.tick (now : Nat) (p : Pacer) : Pacer := Pacer.catchUp now now p

end Sys2Proof.Machine
end

