-- ==== Sys2Proof/Safety.lean ====
section
/-! DEFINITION. What counts as a safe run: the invariants of a reachable state (10_state.md R43), what a well-formed program
owes a step (70_reset_and_hazards.md R208), and the normal end of a program (R207). -/

namespace Sys2Proof.Machine

/-- The core is halted by a fault (R173). -/
def Halted (s : State) : Prop := s.fault ≠ none

/-- A step taken here raises no fault (R208): the fetch is in bounds, and so is the sprite of a DRW. -/
def StepInBounds (s : State) : Prop :=
  s.pc.toNat ≤ 0xFFE ∧ ∀ x y n, decode (fetchedWord s) = .drwVxVyN x y n → 1 ≤ n.toNat → s.I.toNat + n.toNat - 1 ≤ 0xFFF

/-- The normal end of a program: no fault, and the word at `pc` is a jump to itself (R207 (c), D13). -/
def NormalEnd (s : State) : Prop :=
  s.fault = none ∧ s.pc.toNat ≤ 0xFFE ∧ (fetchedWord s).toNat = 0x1000 + s.pc.toNat

/-- The invariant of every reachable state (R43, R27, R29, R30), with the canonical form of memory. -/
structure RunInv (s : State) : Prop where
  pcBound : s.pc.toNat ≤ 0x1000
  indexBound : s.I.toNat ≤ 0xFFF
  delayZero : s.DT = 0
  soundZero : s.ST = 0
  memoryWf : Memory.wf s.memory = true

/-- The invariant of a reachable session: the core's, and before the first step nothing but loads has changed it (R180, R203). -/
structure SessionInv (h : Session) : Prop where
  coreInv : RunInv h.core
  loading : h.started = false → h.core = { State.reset with memory := h.core.memory }

/-- A session the host protocol reaches from reset (R180). -/
def Session.Reachable (h : Session) : Prop := ∃ inputs : List HostInput, Session.run Session.start inputs = some h

end Sys2Proof.Machine
end

