-- ==== Sys2Proof/Certificates/Slice0/Obligations.lean ====
section
/-! DEFINITION. The statements for the provers. A statement that rests on a decision of the spec (D<n>) or on a choice of the
model (log entry <n>) says so in its docstring. -/

open Sys2Proof Sys2Proof.Machine

/-! ### Reset, load, host -/

/-- 70_reset_and_hazards.md R200 and 10_state.md R41: reset, whenever it is applied (D19), leaves every element zero, `pc` at
0x200 and no fault (the latch is the spec's own state, D4). -/
def Obligations.ResetLeavesTheSpecValues : Prop :=
  (∀ s : State, resetPort s = State.reset) ∧
  (∀ a : Nat, State.reset.memRead a = if a ≤ 0xFFF then some 0x00#8 else none) ∧
  State.reset.pc = 0x200#16 ∧ State.reset.I = 0x0000#16 ∧ (∀ x : Nibble, State.reset.readV x = 0x00#8) ∧
  State.reset.DT = 0x00#8 ∧ State.reset.ST = 0x00#8 ∧
  (∀ (r : Fin 32) (c : Fin 64), State.reset.pixel r c = false) ∧
  State.reset.needsRedraw = false ∧ State.reset.fault = none ∧ faultOut State.reset = 0#2

/-- 70_reset_and_hazards.md R203: the loads of an image's bytes, in any order after reset, leave byte `k` at 0x200 + k, every
other byte 0x00 and every other element at its reset value. -/
def Obligations.LoadPlacesTheImageInAnyOrder : Prop :=
  ∀ image : List Byte, image.length ≤ 3584 →
    ∀ loads : List HostInput, loads.Perm (image.mapIdx fun k b => HostInput.load (0x200 + k) b) →
      ∃ s : State, Session.run Session.start loads = some ⟨s, false⟩ ∧ loadImage image = some s ∧
        (∀ (k : Nat) (hk : k < image.length), s.memRead (0x200 + k) = some image[k]) ∧
        (∀ a : Nat, a ≤ 0xFFF → (a < 0x200 ∨ 0x200 + image.length ≤ a) → s.memRead a = some 0x00#8) ∧
        s = { State.reset with memory := s.memory }

/-- 70_reset_and_hazards.md R204 and 10_state.md R37, by the spec's decision D10: an image over 3584 bytes is refused and the
`load` port reaches no address below 0x200 or above 0xFFF. -/
def Obligations.OversizedImageIsRefused : Prop :=
  (∀ image : List Byte, loadImage image = none ↔ 3584 < image.length) ∧
  (∀ (a : Nat) (b : Byte) (s : State), loadPort a b s = none ↔ (a < 0x200 ∨ 0xFFF < a))

/-- 60_exceptions.md R181 (D9): taken with the flag clear, a step leaves `needs_redraw` set exactly when it executed a CLS or
a DRW that raised no fault. -/
def Obligations.RedrawFlagMarksClsAndDraw : Prop :=
  ∀ s t : State, s.needsRedraw = false → step s = .next t →
    (t.needsRedraw = true ↔
      t.fault = none ∧ ((∃ n2 n4, decode (fetchedWord s) = .cls n2 n4) ∨
        ∃ x y n, decode (fetchedWord s) = .drwVxVyN x y n))

/-- 70_reset_and_hazards.md R214 and R215 (the host's scheduler, D12): a tick takes one paced step for each whole interval of
100 ms owed, the debt below one interval is kept, and a paced step is the `step` port followed by the handshake. That time is
counted in whole milliseconds, and that the scheduler goes on pacing a halted core (which R214 and N10 leave open), are the
model's choices (log entry 15). -/
def Obligations.TickTakesOneStepPerInterval : Prop :=
  ∀ (now : Nat) (p : Pacer),
    let k := (now - p.lastStepTime) / 100
    Pacer.tick now p = Pacer.stepOnce^[k] p ∧
    (Pacer.tick now p).lastStepTime = p.lastStepTime + 100 * k ∧
    now - (Pacer.tick now p).lastStepTime < 100 ∧
    p.stepOnce.core.needsRedraw = false ∧
    p.stepOnce.core = (if (stepPort p.core).needsRedraw then redrawAck (stepPort p.core) else stepPort p.core) ∧
    p.stepOnce.frames =
      (if (stepPort p.core).needsRedraw then p.frames ++ [displayOut (stepPort p.core)] else p.frames)

/-! ### Fetch and step -/

/-- 20_memory.md R52: the fetch combines the bytes at `pc` and `pc + 1` big-endian, advances `pc` by exactly 2 with no other
side effect, and the executor sees the advanced `pc`. -/
def Obligations.FetchReadsABigEndianWord : Prop :=
  ∀ (s : State) (hi lo : Byte), s.pc.toNat + 1 ≤ 0xFFF →
    s.memRead s.pc.toNat = some hi → s.memRead (s.pc.toNat + 1) = some lo →
    ∃ w : Word, w.toNat = hi.toNat * 256 + lo.toNat ∧
      fetch s = some (w, { s with pc := s.pc + 2#16 }) ∧ (s.pc + 2#16).toNat = s.pc.toNat + 2 ∧
      (s.fault = none → step s = exec (decode w) { s with pc := s.pc + 2#16 })

/-- 00_scope.md R15: when the two bytes at `pc` decode to a well-formed instruction, a step of the running core is that
instruction's execute phase with `pc` already advanced by 2. -/
def Obligations.StepRunsTheDecodedInstruction : Prop :=
  ∀ (s : State) (hi lo : Byte) (i : Instr), s.fault = none →
    s.memRead s.pc.toNat = some hi → s.memRead (s.pc.toNat + 1) = some lo →
    decodeBytes [hi, lo] = .ok (i, []) → i.wellFormed = true →
    step s = exec i { s with pc := s.pc + 2#16 }

/-- 20_memory.md R53 and 60_exceptions.md R171, by the spec's decisions D2 and D15: a fetch with `pc + 1 > 0xFFF` (unbounded
sum) latches `FetchBounds`, changes nothing else and emits nothing; `pc = 0xFFE` is the last legal fetch. That the faulting step
is a next state is the model's choice (log entry 1). -/
def Obligations.FetchOutOfBoundsHaltsTheCore : Prop :=
  ∀ s : State, s.fault = none →
    (0xFFF < s.pc.toNat + 1 → step s = .next { s with fault := some .fetchBounds } ∧ diagOut s = none ∧
      faultOut { s with fault := some .fetchBounds } = 1#2) ∧
    (s.pc.toNat + 1 ≤ 0xFFF → ∃ w, fetch s = some (w, { s with pc := s.pc + 2#16 })) ∧
    (s.pc = 0xFFE#16 → ∃ w, fetch s = some (w, { s with pc := 0x1000#16 }))

/-- 60_exceptions.md R173 and R176, 10_state.md R36 and R37 (D4): a halted core has no step, ignores the `step` port for ever,
emits nothing, and leaves that state by reset alone: no other port, and no other input of a session, clears the latch. That
`step` answers the fault `halted` is the model's choice (log entry 1), the session the model's reading (log entry 12). -/
def Obligations.HaltedCoreIgnoresSteps : Prop :=
  ∀ (s : State) (c : FaultCause), s.fault = some c →
    step s = .fault (.halted c) ∧ (∀ n : Nat, stepPort^[n] s = s) ∧ diagOut s = none ∧ resetPort s = State.reset ∧
    (redrawAck s).fault = some c ∧ (∀ (a : Nat) (b : Byte) (t : State), loadPort a b s = some t → t.fault = some c) ∧
    (∀ (started : Bool) (input : HostInput) (h : Session), input ≠ .reset →
      Session.accept ⟨s, started⟩ input = some h → h.core.fault = some c)

/-- 00_scope.md R15: the step function is total on every state whose `fault` is `None`, and its result is exactly one of
`Next` and `Fault`; a state whose `fault` is not `None` has no step; no instruction is refused. That a raised fault is a next
state with the latch set, and a step of a halted core the fault `halted`, is the model's choice (log entry 1). -/
def Obligations.RunningCoreAlwaysHasAStep : Prop :=
  ∀ s : State, ((∃ t, step s = .next t) ↔ s.fault = none) ∧ (∀ r : Refusal, step s ≠ .refused r) ∧
    (stepResult s = none ↔ s.fault ≠ none) ∧
    (∀ t, stepResult s = some (.next t) ↔ step s = .next t ∧ t.fault = none) ∧
    (∀ c t, stepResult s = some (.fault c t) ↔ step s = .next t ∧ t.fault = some c)

/-- 60_exceptions.md R174 and R178 (D2, D3, D4): a step that raises a fault has made no change but the latch and, for
`SpriteBounds`, the advance of `pc`; and each fault has its one condition. That such a step is a next state is log entry 1. -/
def Obligations.FaultsArePrecise : Prop :=
  ∀ s t : State, step s = .next t → ∀ c : FaultCause, t.fault = some c →
    (c = .fetchBounds ∧ 0xFFF < s.pc.toNat + 1 ∧ t = { s with fault := some .fetchBounds }) ∨
    (c = .spriteBounds ∧ s.pc.toNat + 1 ≤ 0xFFF ∧ t = { s with pc := s.pc + 2#16, fault := some .spriteBounds } ∧
      ∃ x y n, decode (fetchedWord s) = .drwVxVyN x y n ∧ 1 ≤ n.toNat ∧ 0xFFF < s.I.toNat + n.toNat - 1)

/-- 70_reset_and_hazards.md R208: what a well-formed program owes a step is exactly what keeps the step from raising a fault. -/
def Obligations.StepInBoundsRaisesNoFault : Prop :=
  ∀ s : State, s.fault = none → (StepInBounds s ↔ ∃ t, step s = .next t ∧ t.fault = none)

/-- 00_scope.md R14 and 60_exceptions.md R183 (D14): a step emits the diagnostic event exactly when it fetched an unrecognized
word, and the event carries the word and its address. -/
def Obligations.DiagnosticEventMarksUnrecognizedWords : Prop :=
  ∀ (s : State) (e : DiagEvent), diagOut s = some e ↔
    s.fault = none ∧ s.pc.toNat + 1 ≤ 0xFFF ∧ (decode (fetchedWord s)).isUnrecognized = true ∧
      e = ⟨fetchedWord s, s.pc⟩

/-- The model's own operation (log entry 11): a step after `withFetchWord` runs exactly the word given. -/
def Obligations.WithFetchWordRunsTheWord : Prop :=
  ∀ (s : State) (i : Instr), Memory.wf s.memory = true →
    ∃ s₀ : State, step (s.withFetchWord 16 (encode i).toNat) = exec i s₀ ∧
      s₀ = { s.withFetchWord 16 (encode i).toNat with pc := (s.withFetchWord 16 (encode i).toNat).pc + 2#16 } ∧
      s₀.I = s.I ∧ s₀.V = s.V ∧ s₀.DT = s.DT ∧ s₀.ST = s.ST ∧ s₀.display = s.display ∧
      s₀.needsRedraw = s.needsRedraw ∧ s₀.fault = none ∧
      (s.pc.toNat + 1 ≤ 0xFFF → s₀.pc = s.pc + 2#16) ∧
      (∀ a : Nat, a + 2 ≠ s₀.pc.toNat → a + 1 ≠ s₀.pc.toNat → s₀.memRead a = s.memRead a)

/-! ### Encoding -/

/-- 30_encoding.md R84, with the fields of 00_scope.md R9 written as arithmetic on the word: `OP = w / 4096`,
`X = w / 256 mod 16`, `Y = w / 16 mod 16`, `N = w mod 16`, `KK = w mod 256`, `NNN = w mod 4096`. -/
def Obligations.DecodeFollowsTheOpcodeMap : Prop :=
  ∀ w : Word,
    (w.toNat / 4096 = 0x0 → w.toNat / 16 % 16 = 0xE → ∃ n2 n4, decode w = .cls n2 n4) ∧
    (w.toNat / 4096 = 0x0 → w.toNat / 16 % 16 ≠ 0xE → (decode w).isUnrecognized = true) ∧
    (w.toNat / 4096 = 0x1 → decode w = .jpAddr (BitVec.ofNat 12 (w.toNat % 4096))) ∧
    (w.toNat / 4096 = 0x6 →
      decode w = .ldVxByte (BitVec.ofNat 4 (w.toNat / 256 % 16)) (BitVec.ofNat 8 (w.toNat % 256))) ∧
    (w.toNat / 4096 = 0x7 →
      decode w = .addVxByte (BitVec.ofNat 4 (w.toNat / 256 % 16)) (BitVec.ofNat 8 (w.toNat % 256))) ∧
    (w.toNat / 4096 = 0xA → decode w = .ldIAddr (BitVec.ofNat 12 (w.toNat % 4096))) ∧
    (w.toNat / 4096 = 0xD →
      decode w = .drwVxVyN (BitVec.ofNat 4 (w.toNat / 256 % 16)) (BitVec.ofNat 4 (w.toNat / 16 % 16))
        (BitVec.ofNat 4 (w.toNat % 16))) ∧
    (w.toNat / 4096 ∈ [0x2, 0x3, 0x4, 0x5, 0x8, 0x9, 0xB, 0xC, 0xE, 0xF] → (decode w).isUnrecognized = true)

/-- 30_encoding.md R85 and R87: the 31 rows partition the 65536 words, and the row that selects a word is the row of the
instruction the decoder reads (the CLS mask is the spec's decision D18). -/
def Obligations.OpcodeRowsPartitionTheWords : Prop :=
  opcodeTable.length = 31 ∧
  ∀ w : Word, (decode w).row ∈ opcodeTable ∧ ∀ r ∈ opcodeTable, (r.selects w = true ↔ r = (decode w).row)

/-- Decode and encode agree, for every instruction and every word: no bit of an encoding is dropped. That the ignored bits of
a word stay operands of its constructor, so that `encode (decode w) = w` for a CLS too, is the model's choice (log entry 9; the
assembler's one spelling of CLS does not round-trip, R91, R93); that every instruction is well-formed is log entry 16, and the
byte-stream decoder and `decodeTableWord` are log entry 13. -/
def Obligations.DecodeEncodeRoundTrip : Prop :=
  (∀ i : Instr, i.wellFormed = true ∧ decode (encode i) = i) ∧ (∀ w : Word, encode (decode w) = w) ∧
  (∀ (i : Instr) (rest : List Byte), decodeBytes (encodeBytes i ++ rest) = .ok (i, rest)) ∧
  (∀ i : Instr, decodeTableWord 16 (encode i).toNat = some i)

/-- Words written out from 95_test_vectors.md section 2.2 decode to the instructions they stand for. -/
def Obligations.SpecVectorWordsDecode : Prop :=
  decode 0x00E0#16 = .cls 0x0#4 0x0#4 ∧ decode 0x0AE5#16 = .cls 0xA#4 0x5#4 ∧ decode 0x1FFF#16 = .jpAddr 0xFFF#12 ∧
  decode 0x6A2B#16 = .ldVxByte 0xA#4 0x2B#8 ∧ decode 0x7F01#16 = .addVxByte 0xF#4 0x01#8 ∧
  decode 0xA20C#16 = .ldIAddr 0x20C#12 ∧ decode 0xD123#16 = .drwVxVyN 0x1#4 0x2#4 0x3#4 ∧
  decode 0x0E00#16 = .unrecY0 0xE#4 0x0#4 ∧ decode 0x00F0#16 = .unrecYF 0x0#4 0x0#4 ∧
  decode 0x8014#16 = .unrecOp8 0x014#12

/-- 30_encoding.md R91 and R92 (the spec's own syntax, D22): an assembled item is accepted exactly when its operands are in
range and its label, if it names one, is defined in range; its two bytes decode to the instruction with those operands, `DB`
places the bytes listed, and `DW` the word. That an item is refused otherwise, and that JP and LD I alone take a label, are the
model's choices (log entry 14). -/
def Obligations.AssembledItemsDecode : Prop :=
  ∀ (labels : List (String × Nat)) (x y n k a w : Nat) (name : String) (bs : List Nat),
    (AsmItem.bytes labels .cls = some [0x00#8, 0xE0#8]) ∧
    (if a < 4096 then ∃ bs, AsmItem.bytes labels (.jp (.number a)) = some bs ∧
        decodeBytes bs = .ok (.jpAddr (BitVec.ofNat 12 a), [])
      else AsmItem.bytes labels (.jp (.number a)) = none) ∧
    (if a < 4096 then ∃ bs, AsmItem.bytes labels (.ldI (.number a)) = some bs ∧
        decodeBytes bs = .ok (.ldIAddr (BitVec.ofNat 12 a), [])
      else AsmItem.bytes labels (.ldI (.number a)) = none) ∧
    (if x < 16 ∧ k < 256 then ∃ bs, AsmItem.bytes labels (.ldV x k) = some bs ∧
        decodeBytes bs = .ok (.ldVxByte (BitVec.ofNat 4 x) (BitVec.ofNat 8 k), [])
      else AsmItem.bytes labels (.ldV x k) = none) ∧
    (if x < 16 ∧ k < 256 then ∃ bs, AsmItem.bytes labels (.addV x k) = some bs ∧
        decodeBytes bs = .ok (.addVxByte (BitVec.ofNat 4 x) (BitVec.ofNat 8 k), [])
      else AsmItem.bytes labels (.addV x k) = none) ∧
    (if x < 16 ∧ y < 16 ∧ n < 16 then ∃ bs, AsmItem.bytes labels (.drw x y n) = some bs ∧
        decodeBytes bs = .ok (.drwVxVyN (BitVec.ofNat 4 x) (BitVec.ofNat 4 y) (BitVec.ofNat 4 n), [])
      else AsmItem.bytes labels (.drw x y n) = none) ∧
    (if w < 65536 then ∃ bs, AsmItem.bytes labels (.dw w) = some bs ∧ decodeBytes bs = .ok (decode (BitVec.ofNat 16 w), [])
      else AsmItem.bytes labels (.dw w) = none) ∧
    (labels.lookup name = some a →
      AsmItem.bytes labels (.jp (.label name)) = AsmItem.bytes labels (.jp (.number a)) ∧
      AsmItem.bytes labels (.ldI (.label name)) = AsmItem.bytes labels (.ldI (.number a))) ∧
    (labels.lookup name = none →
      AsmItem.bytes labels (.jp (.label name)) = none ∧ AsmItem.bytes labels (.ldI (.label name)) = none) ∧
    (if ∀ b ∈ bs, b < 256 then AsmItem.bytes labels (.db bs) = some (bs.map (BitVec.ofNat 8))
      else AsmItem.bytes labels (.db bs) = none) ∧
    AsmItem.bytes labels (.label name) = some []

/-- 30_encoding.md R93 (the spec's own convention, D22; the text forms of log entry 14): the disassembly of an instruction
assembles back to its bytes, except that a CLS with other ignored nibbles comes back as the canonical spelling 0x00E0. -/
def Obligations.DisassemblyAssemblesBack : Prop :=
  (∀ n2 n4 : Nibble, assembleSource (disassemble (.cls n2 n4)) = some [0x00#8, 0xE0#8]) ∧
  (∀ i : Instr, (∀ n2 n4, i ≠ .cls n2 n4) → assembleSource (disassemble i) = some (encodeBytes i))

/-! ### The instructions -/

/-- 40_cls.md R100: CLS completes in every state, turns every pixel off, sets `needs_redraw`, changes nothing else, ignores
its 2nd and 4th nibbles, and is idempotent. -/
def Obligations.ClsClearsTheDisplay : Prop :=
  (∀ w : Word, w &&& 0xF0F0#16 = 0x00E0#16 ↔ ∃ n2 n4, decode w = .cls n2 n4) ∧ encode (.cls 0#4 0#4) = 0x00E0#16 ∧
  (∀ (n2 n4 : Nibble) (s : State), ∃ t, exec (.cls n2 n4) s = .next t ∧
    (∀ (r : Nat) (hr : r < 32), t.display[r] = 0x0000000000000000#64) ∧ (∀ r c, t.pixel r c = false) ∧
    t.needsRedraw = true ∧ t = { s with display := t.display, needsRedraw := t.needsRedraw } ∧
    exec (.cls n2 n4) t = .next t ∧ ∀ m2 m4 : Nibble, exec (.cls m2 m4) s = .next t)

/-- 41_jump.md R110: JP completes in every state with `pc` the 12-bit operand zero-extended, changes nothing else, and a core
stays in place exactly at a jump to its own address; the target 0xFFF faults at the next step (that clause by the spec's
decision D2; that the faulting step is a next state with the latch set is the model's choice, log entry 1). -/
def Obligations.JpSetsThePc : Prop :=
  (∀ w : Word, w &&& 0xF000#16 = 0x1000#16 ↔ ∃ nnn, decode w = .jpAddr nnn) ∧
  (∀ nnn : Addr12, (encode (.jpAddr nnn)).toNat = 0x1000 + nnn.toNat) ∧
  (∀ (nnn : Addr12) (s : State), ∃ t, exec (.jpAddr nnn) s = .next t ∧ t.pc.toNat = nnn.toNat ∧ t = { s with pc := t.pc }) ∧
  (∀ s : State, s.fault = none →
    (step s = .next s ↔ s.pc.toNat ≤ 0xFFE ∧ ∃ nnn, decode (fetchedWord s) = .jpAddr nnn ∧ nnn.toNat = s.pc.toNat)) ∧
  (∀ s t : State, s.fault = none → exec (.jpAddr 0xFFF#12) s = .next t →
    t.fault = none ∧ t.pc = 0x0FFF#16 ∧ step t = .next { t with fault := some .fetchBounds })

/-- 42_register_immediate.md R120: LD Vx, byte completes in every state with `V[X]` the immediate, for every `X`, VF
included, and every other register and element unchanged. -/
def Obligations.LdVxLoadsTheByte : Prop :=
  (∀ w : Word, w &&& 0xF000#16 = 0x6000#16 ↔ ∃ x kk, decode w = .ldVxByte x kk) ∧
  (∀ (x : Nibble) (kk : Byte), (encode (.ldVxByte x kk)).toNat = 0x6000 + x.toNat * 256 + kk.toNat) ∧
  (∀ (x : Nibble) (kk : Byte) (s : State), ∃ t, exec (.ldVxByte x kk) s = .next t ∧ t.readV x = kk ∧
    (∀ y : Nibble, y ≠ x → t.readV y = s.readV y) ∧ t = { s with V := t.V })

/-- 42_register_immediate.md R124: ADD Vx, byte completes in every state with `V[X]` the sum modulo 256, for every `X`, VF
included; the carry is recorded nowhere: every other register and element is unchanged. -/
def Obligations.AddVxWrapsAt256 : Prop :=
  (∀ w : Word, w &&& 0xF000#16 = 0x7000#16 ↔ ∃ x kk, decode w = .addVxByte x kk) ∧
  (∀ (x : Nibble) (kk : Byte), (encode (.addVxByte x kk)).toNat = 0x7000 + x.toNat * 256 + kk.toNat) ∧
  (∀ (x : Nibble) (kk : Byte) (s : State), ∃ t, exec (.addVxByte x kk) s = .next t ∧
    (t.readV x).toNat = ((s.readV x).toNat + kk.toNat) % 256 ∧
    (∀ y : Nibble, y ≠ x → t.readV y = s.readV y) ∧ t = { s with V := t.V })

/-- 42_register_immediate.md R128: LD I, addr completes in every state with `I` the 12-bit operand zero-extended, and nothing
else changed. -/
def Obligations.LdILoadsTheAddress : Prop :=
  (∀ w : Word, w &&& 0xF000#16 = 0xA000#16 ↔ ∃ nnn, decode w = .ldIAddr nnn) ∧
  (∀ nnn : Addr12, (encode (.ldIAddr nnn)).toNat = 0xA000 + nnn.toNat) ∧
  (∀ (nnn : Addr12) (s : State), ∃ t, exec (.ldIAddr nnn) s = .next t ∧ t.I.toNat = nnn.toNat ∧ t.I.toNat ≤ 0xFFF ∧
    t = { s with I := t.I })

/-- 44_unrecognized.md R160: a word that no row of 30_encoding.md R85 selects changes nothing but the fetch's advance of `pc`,
and is reported with its address. -/
def Obligations.UnrecognizedWordIsSkipped : Prop :=
  ∀ s : State, s.fault = none → s.pc.toNat + 1 ≤ 0xFFF →
    (instructionRows.all fun r => !r.selects (fetchedWord s)) = true →
    ((category0Rows ++ categoryRows).any fun r => r.selects (fetchedWord s)) = true ∧
    step s = .next { s with pc := s.pc + 2#16 } ∧ (s.pc + 2#16).toNat = s.pc.toNat + 2 ∧
      diagOut s = some ⟨fetchedWord s, s.pc⟩

/-- 44_unrecognized.md R160, by constructor: each of the 25 unrecognized rows completes in every state and changes nothing in
its execute phase. -/
def Obligations.EveryUnrecognizedRowCompletes : Prop :=
  ∀ (a b : Nibble) (r : Addr12) (s : State),
    (∀ i ∈ [Instr.unrecY0 a b, .unrecY1 a b, .unrecY2 a b, .unrecY3 a b, .unrecY4 a b, .unrecY5 a b, .unrecY6 a b,
        .unrecY7 a b, .unrecY8 a b, .unrecY9 a b, .unrecYA a b, .unrecYB a b, .unrecYC a b, .unrecYD a b, .unrecYF a b],
      exec i s = .next s) ∧
    (∀ i ∈ [Instr.unrecOp2 r, .unrecOp3 r, .unrecOp4 r, .unrecOp5 r, .unrecOp8 r, .unrecOp9 r, .unrecOpB r, .unrecOpC r,
        .unrecOpE r, .unrecOpF r],
      exec i s = .next s)

/-! ### The sprite compositor -/

/-- The display row of sprite row `y` (43_sprite_draw.md R141), for a sprite whose top edge is `V[Y] = v`. -/
def Sys2Proof.Machine.drawnRow (v : Byte) (y : Nat) : Fin 32 := ⟨(v.toNat + y) % 32, Nat.mod_lt _ (by decide)⟩

/-- The display column of sprite column `x` (43_sprite_draw.md R141), for a sprite whose left edge is `V[X] = v`. -/
def Sys2Proof.Machine.drawnColumn (v : Byte) (x : Nat) : Fin 64 := ⟨(v.toNat + x) % 64, Nat.mod_lt _ (by decide)⟩

/-- Bit `7 - x` of the sprite byte at `I + y` (43_sprite_draw.md R140). -/
def Sys2Proof.Machine.spritePixel (s : State) (y x : Nat) : Bool :=
  (s.memory.byteAt (s.I.toNat + y)).getLsbD (7 - x)

/-- 43_sprite_draw.md R140 to R144 (collision by the spec's decision D1, bounds by D3, operand order by D8): a DRW whose sprite
lies in memory completes; each pixel under the sprite is XORed with its sprite bit, no other pixel changes; VF becomes 1 if a
lit pixel met a 1 bit and 0 otherwise, also when VF held a coordinate; `needs_redraw` is set; nothing else changes. -/
def Obligations.DrwDrawsTheSprite : Prop :=
  ∀ (x y n : Nibble) (s : State), (n.toNat = 0 ∨ s.I.toNat + n.toNat - 1 ≤ 0xFFF) →
    ∃ t, exec (.drwVxVyN x y n) s = .next t ∧
      (∀ j < n.toNat, ∀ i < 8,
        t.pixel (drawnRow (s.readV y) j) (drawnColumn (s.readV x) i) =
          (s.pixel (drawnRow (s.readV y) j) (drawnColumn (s.readV x) i) ^^ spritePixel s j i)) ∧
      (∀ (r : Fin 32) (c : Fin 64),
        (∀ j < n.toNat, ∀ i < 8, ¬ (drawnRow (s.readV y) j = r ∧ drawnColumn (s.readV x) i = c)) →
          t.pixel r c = s.pixel r c) ∧
      (t.readV 0xF#4 = 0x00#8 ∨ t.readV 0xF#4 = 0x01#8) ∧
      (t.readV 0xF#4 = 0x01#8 ↔ ∃ j < n.toNat, ∃ i < 8, spritePixel s j i = true ∧
          s.pixel (drawnRow (s.readV y) j) (drawnColumn (s.readV x) i) = true) ∧
      (∀ v : Nibble, v ≠ 0xF#4 → t.readV v = s.readV v) ∧
      t.needsRedraw = true ∧
      t = { s with V := t.V, display := t.display, needsRedraw := t.needsRedraw }

/-- 43_sprite_draw.md R141: a draw depends on its start coordinates only modulo 64 and 32, so a sprite wraps and is never
clipped: every sprite pixel lands on the display, on its own pixel. -/
def Obligations.DrwCoordinatesWrap : Prop :=
  (∀ (x y n : Nibble) (s u s' u' : State),
    s.memory = u.memory → s.I = u.I → s.display = u.display →
    (s.readV x).toNat % 64 = (u.readV x).toNat % 64 → (s.readV y).toNat % 32 = (u.readV y).toNat % 32 →
    exec (.drwVxVyN x y n) s = .next s' → exec (.drwVxVyN x y n) u = .next u' → s'.display = u'.display) ∧
  (∀ (x y n : Nibble) (s : State), (n.toNat = 0 ∨ s.I.toNat + n.toNat - 1 ≤ 0xFFF) →
    ∃ t, exec (.drwVxVyN x y n) s = .next t ∧ ∀ j < n.toNat, ∀ i < 8, ∀ (r : Fin 32) (c : Fin 64),
      r.val = ((s.readV y).toNat + j) % 32 → c.val = ((s.readV x).toNat + i) % 64 →
        t.pixel r c = (s.pixel r c ^^ spritePixel s j i))

/-- 43_sprite_draw.md R144 and 60_exceptions.md R172, by the spec's decision D3: a sprite that would leave memory latches
`SpriteBounds` and nothing else changes; in the step, only the fetch's advance of `pc` stands. That the faulting step is a next
state is the model's choice (log entry 1). -/
def Obligations.DrwOutOfBoundsRaisesSpriteBounds : Prop :=
  ∀ (x y n : Nibble) (s : State), 1 ≤ n.toNat → 0xFFF < s.I.toNat + n.toNat - 1 →
    exec (.drwVxVyN x y n) s = .next { s with fault := some .spriteBounds } ∧
    (s.fault = none → s.pc.toNat + 1 ≤ 0xFFF → decode (fetchedWord s) = .drwVxVyN x y n →
      step s = .next { s with pc := s.pc + 2#16, fault := some .spriteBounds }) ∧
    faultOut { s with fault := some .spriteBounds } = 2#2

/-- 43_sprite_draw.md R148: every DRW that does not fault sets `needs_redraw`; an all-zero sprite or height 0 changes no pixel
and still sets it. -/
def Obligations.DrwAlwaysSetsRedraw : Prop :=
  ∀ (x y n : Nibble) (s : State), (n.toNat = 0 ∨ s.I.toNat + n.toNat - 1 ≤ 0xFFF) →
    ∃ t, exec (.drwVxVyN x y n) s = .next t ∧ t.needsRedraw = true ∧
      ((∀ j < n.toNat, s.memory.byteAt (s.I.toNat + j) = 0x00#8) → t.display = s.display)

/-- 43_sprite_draw.md R149: height 0 is legal whatever `I` holds: nothing is read or drawn, VF becomes 0, `needs_redraw` is set. -/
def Obligations.DrwHeightZeroDrawsNothing : Prop :=
  ∀ (x y : Nibble) (s : State), ∃ t, exec (.drwVxVyN x y 0x0#4) s = .next t ∧ t.display = s.display ∧
    t.readV 0xF#4 = 0x00#8 ∧ (∀ v : Nibble, v ≠ 0xF#4 → t.readV v = s.readV v) ∧ t.needsRedraw = true ∧
    t = { s with V := t.V, needsRedraw := t.needsRedraw }

/-- The frame of DRW in both its forms, drawn or faulted (43_sprite_draw.md R140 "Unchanged", R144): every register but VF, `I`,
`pc`, the timers, every byte of memory, and every display row the sprite does not cover, as a whole word. -/
def Obligations.DrwFrame : Prop :=
  ∀ (x y n : Nibble) (s t : State), exec (.drwVxVyN x y n) s = .next t →
    (∀ v : Nibble, v ≠ 0xF#4 → t.readV v = s.readV v) ∧ t.I = s.I ∧ t.pc = s.pc ∧ t.DT = s.DT ∧ t.ST = s.ST ∧
    (∀ a : Nat, t.memRead a = s.memRead a) ∧
    (∀ r : Fin 32, (∀ j < n.toNat, drawnRow (s.readV y) j ≠ r) → t.display[r.val] = s.display[r.val]) ∧
    (t.fault ≠ s.fault → t = { s with fault := t.fault })

/-- 43_sprite_draw.md R145 (an inference of the spec, "derived: from rule R140, rule R141"): the pixel loop of R140 equals the
row-at-a-time form, for every sprite and display. -/
def Obligations.PixelLoopEqualsRowForm : Prop :=
  ∀ (x0 y0 n : Nat) (bytes : Nat → Byte) (k : Canvas), drawSprite x0 y0 n bytes k = drawSpriteRows x0 y0 n bytes k

/-- 43_sprite_draw.md R146 (an inference of the spec, "derived: from rule R140"; collision by D1): drawing twice restores the
display bit for bit, and the two collisions say whether a pixel under a 1 bit was on, and was off, before the first draw. -/
def Obligations.DrawingTwiceErases : Prop :=
  ∀ (x y n : Nibble) (s : State), x ≠ 0xF#4 → y ≠ 0xF#4 → (n.toNat = 0 ∨ s.I.toNat + n.toNat - 1 ≤ 0xFFF) →
    ∃ t u, exec (.drwVxVyN x y n) s = .next t ∧ exec (.drwVxVyN x y n) t = .next u ∧ u.display = s.display ∧
      (t.readV 0xF#4 = 0x01#8 ↔ ∃ j < n.toNat, ∃ i < 8, spritePixel s j i = true ∧
        s.pixel (drawnRow (s.readV y) j) (drawnColumn (s.readV x) i) = true) ∧
      (u.readV 0xF#4 = 0x01#8 ↔ ∃ j < n.toNat, ∃ i < 8, spritePixel s j i = true ∧
        s.pixel (drawnRow (s.readV y) j) (drawnColumn (s.readV x) i) = false)

/-- 10_state.md R33: column `c` of row `r` is bit `63 - c` of the row's word: column 0 is the most significant bit, column 63
the least significant. -/
def Obligations.PixelIsTheRowBit : Prop :=
  (∀ (s : State) (r : Fin 32) (c : Fin 64), s.pixel r c = s.display[r.val].getLsbD (63 - c.val)) ∧
  (∀ (s : State) (r : Fin 32), s.display[r.val] = 0x8000000000000000#64 → ∀ c : Fin 64, s.pixel r c = decide (c = 0)) ∧
  (∀ (s : State) (r : Fin 32), s.display[r.val] = 0x0000000000000001#64 → ∀ c : Fin 64, s.pixel r c = decide (c = 63))

/-! ### The whole machine -/

/-- 10_state.md R25 (faulting steps by D2, D3): how a step leaves `pc`. -/
def Obligations.PcAfterAStep : Prop :=
  ∀ s t : State, step s = .next t →
    (0xFFF < s.pc.toNat + 1 → t.pc = s.pc) ∧
    (s.pc.toNat + 1 ≤ 0xFFF → (∀ nnn, decode (fetchedWord s) = .jpAddr nnn → t.pc.toNat = nnn.toNat) ∧
      ((∀ nnn, decode (fetchedWord s) ≠ .jpAddr nnn) → t.pc.toNat = s.pc.toNat + 2))

/-- 41_jump.md R111 (an inference of the spec): the path of `pc` does not depend on any register or display value. Two runs
from states with the same `pc` and the same memory bytes, both still running, are at the same `pc` after every number of steps. -/
def Obligations.PcPathIsFixedByMemory : Prop :=
  ∀ (n : Nat) (s u s' u' : State), s.pc = u.pc → (∀ a : Nat, s.memRead a = u.memRead a) →
    core.run n s = .next s' → core.run n u = .next u' → s'.pc = u'.pc

/-- The memory frame of every instruction: no instruction stores, so every byte reads as before (20_memory.md R58, an
inference of the spec); no instruction touches the timers (10_state.md R30, by D6); only CLS and DRW write the display or
`needs_redraw` (R34, R35), and no instruction but DRW writes the latch (R36, 60_exceptions.md R170). -/
def Obligations.EveryInstructionLeavesMemoryAndTimers : Prop :=
  ∀ (i : Instr) (s t : State), exec i s = .next t →
    (∀ a : Nat, t.memRead a = s.memRead a) ∧ t.DT = s.DT ∧ t.ST = s.ST ∧
    ((∀ n2 n4, i ≠ .cls n2 n4) → (∀ x y n, i ≠ .drwVxVyN x y n) →
      t.display = s.display ∧ t.needsRedraw = s.needsRedraw ∧ t.fault = s.fault)

/-- 20_memory.md R58 and 10_state.md R30 (inferences and decision D6 of the spec): over any number of steps memory and the two
timers never change. -/
def Obligations.RunsNeverChangeMemory : Prop :=
  ∀ (n : Nat) (s t : State), core.run n s = .next t → t.memory = s.memory ∧ t.DT = s.DT ∧ t.ST = s.ST

/-- 70_reset_and_hazards.md R207 (c), D13: at the normal end of a program every further step leaves the whole state unchanged. -/
def Obligations.NormalEndIsStable : Prop :=
  ∀ s : State, NormalEnd s → ∀ n : Nat, core.run n s = .next s ∧ stepPort^[n] s = s

/-- The reset state meets the invariant of 10_state.md R43 (an inference of the spec), to which the model adds the canonical
form of its memory (log entry 8, the model's choice). -/
def Obligations.ResetMeetsTheRunInvariant : Prop := RunInv State.reset

/-- 10_state.md R43, R27 and R29 (inferences of the spec) and R30 (D6), with the canonical form of the model's memory (log entry
8, the model's choice): every step keeps the invariant. -/
def Obligations.StepKeepsTheRunInvariant : Prop :=
  ∀ s t : State, RunInv s → step s = .next t → RunInv t

/-- 10_state.md R43 over the host protocol of 60_exceptions.md R180: every session the host can reach from reset, by loads,
steps, acknowledges and resets, meets the invariant, and before the first step the core is as reset left it but for the loads.
The canonical form of memory in the invariant is the model's choice (log entry 8), the session its reading (log entry 12). -/
def Obligations.ReachableSessionsMeetTheInvariant : Prop :=
  ∀ h : Session, h.Reachable → RunInv h.core ∧
    (h.started = false → h.core = { State.reset with memory := h.core.memory })

/-- 10_state.md R43 and 20_memory.md R66 (D16): once the first step has been issued, nothing the host may do short of reset
changes memory. -/
def Obligations.MemoryIsFixedAfterTheFirstStep : Prop :=
  ∀ (inputs : List HostInput) (h h' : Session), h.started = true → HostInput.reset ∉ inputs →
    Session.run h inputs = some h' → h'.started = true ∧ ∀ a : Nat, h'.core.memRead a = h.core.memRead a

/-- The canonical form of the model's memory (log entry 8): canonical memories with equal reads are equal data. -/
def Obligations.CanonicalMemoriesAreDeterminedByReads : Prop :=
  ∀ m m' : Memory, Memory.wf m = true → Memory.wf m' = true → (∀ a : Nat, m.byteAt a = m'.byteAt a) → m = m'

/-- 10_state.md R43 (an inference of the spec) at one host action of 60_exceptions.md R180, from every session that meets the
invariant and not only from reset: a load, a step, an acknowledge or a reset keeps it. The canonical form of memory in it is the
model's choice (log entry 8), the session its reading (log entry 12). -/
def Obligations.HostActionsKeepTheSessionInvariant : Prop :=
  ∀ (h h' : Session) (input : HostInput), SessionInv h → h.accept input = some h' → SessionInv h'

/-- 30_encoding.md R92 (D22): a label stands for the address of the next byte placed, the first byte at 0x200. The bytes an
assembled program places before a label are as many as the label's address is above 0x200. -/
def Obligations.LabelsNameTheNextByte : Prop :=
  ∀ (before after : List AsmItem) (name : String) (image : List Byte),
    assemble (before ++ .label name :: after) = some image →
    ∃ placed rest : List Byte, image = placed ++ rest ∧
      asmBytes (asmLabels 0x200 (before ++ .label name :: after)) before = some placed ∧
      asmBytes (asmLabels 0x200 (before ++ .label name :: after)) after = some rest ∧
      (asmLabels 0x200 (before ++ .label name :: after)).lookup name = some (0x200 + placed.length)
end

