-- ==== Sys2Proof/Laws/Assembler.lean ====
section
/-! SUPPORT. What the two passes of the assembler do: an item places as many bytes as its size, and the labels and bytes of a
program are those of its parts. -/

namespace Sys2Proof.Machine

/-- An item that is accepted places as many bytes as `AsmItem.size` says. -/
theorem AsmItem.bytes_length {labels : List (String × Nat)} {item : AsmItem} {bs : List Byte}
    (h : item.bytes labels = some bs) : bs.length = item.size := by
  cases item <;> simp only [AsmItem.bytes, encodeBytes, Option.map_eq_some_iff, Option.ite_none_right_eq_some,
    Option.some.injEq] at h
  case label => simp [← h, AsmItem.size]
  case cls => simp [← h, AsmItem.size]
  case jp => obtain ⟨_, -, rfl⟩ := h; rfl
  case ldI => obtain ⟨_, -, rfl⟩ := h; rfl
  all_goals obtain ⟨-, rfl⟩ := h; simp [AsmItem.size]

/-- The bytes of a program in two parts. -/
theorem asmBytes_append {labels : List (String × Nat)} {p q : List AsmItem} {bs : List Byte}
    (h : asmBytes labels (p ++ q) = some bs) :
    ∃ here after, asmBytes labels p = some here ∧ asmBytes labels q = some after ∧ bs = here ++ after := by
  induction p generalizing bs with
  | nil => exact ⟨[], bs, rfl, h, rfl⟩
  | cons item p ih =>
    simp only [List.cons_append, asmBytes] at h ⊢
    split at h
    · rename_i here after hi ha
      obtain ⟨mid, rest, hp, hq, rfl⟩ := ih ha
      cases h
      exact ⟨here ++ mid, rest, by rw [hi, hp], hq, (List.append_assoc ..).symm⟩
    · cases h

/-- The labels of a program in two parts: the second begins where the sizes of the first end. -/
theorem asmLabels_append (a : Nat) (p q : List AsmItem) :
    asmLabels a (p ++ q) = asmLabels a p ++ asmLabels (a + (p.map AsmItem.size).sum) q := by
  induction p generalizing a with
  | nil => simp [asmLabels]
  | cons item p ih => cases item <;> simp [asmLabels, ih, AsmItem.size, Nat.add_assoc]

/-- The bytes a program places are as many as its items' sizes. -/
theorem asmBytes_length {labels : List (String × Nat)} {p : List AsmItem} {bs : List Byte}
    (h : asmBytes labels p = some bs) : bs.length = (p.map AsmItem.size).sum := by
  induction p generalizing bs with
  | nil => cases h; rfl
  | cons item p ih =>
    simp only [asmBytes] at h
    split at h
    · rename_i hi ha
      cases h
      simp [AsmItem.bytes_length hi, ih ha]
    · cases h

/-- What it takes to assemble: distinct labels, every item accepted, and an image that fits. -/
theorem assemble_some {program : List AsmItem} {image : List Byte} (h : assemble program = some image) :
    ((asmLabels 0x200 program).map Prod.fst).Nodup ∧ asmBytes (asmLabels 0x200 program) program = some image ∧
      image.length ≤ 3584 := by
  simp only [assemble] at h
  split at h
  · split at h
    · split at h
      · cases h
        exact ⟨‹_›, ‹_›, by simpa [isImage] using ‹isImage _ = true›⟩
      · cases h
    · cases h
  · cases h

end Sys2Proof.Machine
end

