-- ==== Sys2Proof/Laws/Encoding.lean ====
section
/-! SUPPORT. The fields of the three word formats (30_encoding.md R81, R82), and the bytes of a word. -/

namespace Sys2Proof

/-! ### The bits of a word, format by format -/

theorem formatXYN_getLsbD (op x y n : Nibble) (i : Nat) :
    (formatXYN op x y n).getLsbD i =
      if i < 4 then n.getLsbD i else if i < 8 then y.getLsbD (i - 4) else if i < 12 then x.getLsbD (i - 8)
      else op.getLsbD (i - 12) := by
  simp only [formatXYN, BitVec.getLsbD_append, show i - 4 - 4 = i - 8 by omega, show i - 8 - 4 = i - 12 by omega]
  by_cases h4 : i < 4
  · simp [h4]
  by_cases h8 : i < 8
  · simp [h4, h8, show i - 4 < 4 by omega]
  by_cases h12 : i < 12
  · simp [h4, h8, h12, show ¬ i - 4 < 4 by omega, show i - 8 < 4 by omega]
  · simp [h4, h8, h12, show ¬ i - 4 < 4 by omega, show ¬ i - 8 < 4 by omega]

theorem formatXB_getLsbD (op x : Nibble) (kk : Byte) (i : Nat) :
    (formatXB op x kk).getLsbD i =
      if i < 8 then kk.getLsbD i else if i < 12 then x.getLsbD (i - 8) else op.getLsbD (i - 12) := by
  have e : i - 8 - 4 = i - 12 := by omega
  have d : ¬ i < 8 → (i - 8 < 4 ↔ i < 12) := by omega
  simp only [formatXB, BitVec.getLsbD_append, e]
  by_cases h8 : i < 8 <;> simp_all

theorem formatA_getLsbD (op : Nibble) (nnn : Addr12) (i : Nat) :
    (formatA op nnn).getLsbD i = if i < 12 then nnn.getLsbD i else op.getLsbD (i - 12) := by
  simp only [formatA, BitVec.getLsbD_append]

/-! ### The fields of a formatted word are its parts -/

variable (op x y n : Nibble) (kk : Byte) (nnn : Addr12)

@[simp] theorem fieldOP_formatXYN : fieldOP (formatXYN op x y n) = op := by
  ext i hi
  simp [fieldOP, ← BitVec.getLsbD_eq_getElem, formatXYN_getLsbD, hi, show ¬ 12 + i < 4 by omega,
    show ¬ 12 + i < 8 by omega, show ¬ 12 + i < 12 by omega]

@[simp] theorem fieldX_formatXYN : fieldX (formatXYN op x y n) = x := by
  ext i hi
  simp [fieldX, ← BitVec.getLsbD_eq_getElem, formatXYN_getLsbD, hi, show ¬ 8 + i < 4 by omega,
    show ¬ 8 + i < 8 by omega, show 8 + i < 12 by omega]

@[simp] theorem fieldY_formatXYN : fieldY (formatXYN op x y n) = y := by
  ext i hi
  simp [fieldY, ← BitVec.getLsbD_eq_getElem, formatXYN_getLsbD, hi, show ¬ 4 + i < 4 by omega,
    show 4 + i < 8 by omega]

@[simp] theorem fieldN_formatXYN : fieldN (formatXYN op x y n) = n := by
  ext i hi
  simp [fieldN, ← BitVec.getLsbD_eq_getElem, formatXYN_getLsbD, hi]

@[simp] theorem fieldOP_formatXB : fieldOP (formatXB op x kk) = op := by
  ext i hi
  simp [fieldOP, ← BitVec.getLsbD_eq_getElem, formatXB_getLsbD, hi, show ¬ 12 + i < 8 by omega,
    show ¬ 12 + i < 12 by omega]

@[simp] theorem fieldX_formatXB : fieldX (formatXB op x kk) = x := by
  ext i hi
  simp [fieldX, ← BitVec.getLsbD_eq_getElem, formatXB_getLsbD, hi, show ¬ 8 + i < 8 by omega,
    show 8 + i < 12 by omega]

@[simp] theorem fieldKK_formatXB : fieldKK (formatXB op x kk) = kk := by
  ext i hi
  simp [fieldKK, ← BitVec.getLsbD_eq_getElem, formatXB_getLsbD, hi]

@[simp] theorem fieldOP_formatA : fieldOP (formatA op nnn) = op := by
  ext i hi
  simp [fieldOP, ← BitVec.getLsbD_eq_getElem, formatA_getLsbD, hi, show ¬ 12 + i < 12 by omega]

@[simp] theorem fieldNNN_formatA : fieldNNN (formatA op nnn) = nnn := by
  ext i hi
  simp [fieldNNN, ← BitVec.getLsbD_eq_getElem, formatA_getLsbD, hi]

/-! ### A word is the format of its fields -/

variable (w : Word)

theorem formatXYN_fields : formatXYN (fieldOP w) (fieldX w) (fieldY w) (fieldN w) = w := by
  apply BitVec.eq_of_getLsbD_eq
  intro i hi
  rw [formatXYN_getLsbD]
  simp only [fieldOP, fieldX, fieldY, fieldN, BitVec.getLsbD_extractLsb']
  by_cases h4 : i < 4
  · simp [h4]
  by_cases h8 : i < 8
  · simp [h4, h8, show i - 4 < 4 by omega, show 4 + (i - 4) = i by omega]
  by_cases h12 : i < 12
  · simp [h4, h8, h12, show i - 8 < 4 by omega, show 8 + (i - 8) = i by omega]
  · simp [h4, h8, h12, show i - 12 < 4 by omega, show 12 + (i - 12) = i by omega]

theorem formatXB_fields : formatXB (fieldOP w) (fieldX w) (fieldKK w) = w := by
  apply BitVec.eq_of_getLsbD_eq
  intro i hi
  rw [formatXB_getLsbD]
  simp only [fieldOP, fieldX, fieldKK, BitVec.getLsbD_extractLsb']
  by_cases h8 : i < 8
  · simp [h8]
  by_cases h12 : i < 12
  · simp [h8, h12, show i - 8 < 4 by omega, show 8 + (i - 8) = i by omega]
  · simp [h8, h12, show i - 12 < 4 by omega, show 12 + (i - 12) = i by omega]

theorem formatA_fields : formatA (fieldOP w) (fieldNNN w) = w := by
  apply BitVec.eq_of_getLsbD_eq
  intro i hi
  rw [formatA_getLsbD]
  simp only [fieldOP, fieldNNN, BitVec.getLsbD_extractLsb']
  by_cases h12 : i < 12
  · simp [h12]
  · simp [h12, show i - 12 < 4 by omega, show 12 + (i - 12) = i by omega]

/-! ### Case analysis over a nibble -/

/-- The sixteen nibbles: the case split of the decoder. -/
theorem nibble_cases (y : Nibble) :
    y = 0x0#4 ∨ y = 0x1#4 ∨ y = 0x2#4 ∨ y = 0x3#4 ∨ y = 0x4#4 ∨ y = 0x5#4 ∨ y = 0x6#4 ∨ y = 0x7#4 ∨
    y = 0x8#4 ∨ y = 0x9#4 ∨ y = 0xA#4 ∨ y = 0xB#4 ∨ y = 0xC#4 ∨ y = 0xD#4 ∨ y = 0xE#4 ∨ y = 0xF#4 := by
  obtain ⟨⟨n, hn⟩⟩ := y
  have h : n < 16 := hn
  interval_cases n <;> simp

/-! ### The two bytes of a word (R54) -/

@[simp] theorem wordOfBytes_bytes : wordOfBytes (hiByte w) (loByte w) = w := by
  apply BitVec.eq_of_getLsbD_eq
  intro i hi
  simp only [wordOfBytes, hiByte, loByte, BitVec.getLsbD_append, BitVec.getLsbD_extractLsb']
  by_cases h8 : i < 8
  · simp [h8]
  · simp [h8, show i - 8 < 8 by omega, show 8 + (i - 8) = i by omega]

/-- `w = hi * 256 + lo` (R52). -/
theorem wordOfBytes_toNat (hi lo : Byte) : (wordOfBytes hi lo).toNat = hi.toNat * 256 + lo.toNat := by
  rw [wordOfBytes, BitVec.toNat_append, ← Nat.shiftLeft_add_eq_or_of_lt lo.isLt, Nat.shiftLeft_eq]

end Sys2Proof
end

