-- ==== Sys2Proof/Laws/State.lean ====
section
/-! SUPPORT. One lemma per field per update of State, and the register file's read after write. -/

namespace Sys2Proof.Machine

variable (s : State)

@[simp] theorem State.setPc_memory (t : Word) : (s.setPc t).memory = s.memory := rfl
@[simp] theorem State.setPc_pc (t : Word) : (s.setPc t).pc = t := rfl
@[simp] theorem State.setPc_I (t : Word) : (s.setPc t).I = s.I := rfl
@[simp] theorem State.setPc_V (t : Word) : (s.setPc t).V = s.V := rfl
@[simp] theorem State.setPc_DT (t : Word) : (s.setPc t).DT = s.DT := rfl
@[simp] theorem State.setPc_ST (t : Word) : (s.setPc t).ST = s.ST := rfl
@[simp] theorem State.setPc_display (t : Word) : (s.setPc t).display = s.display := rfl
@[simp] theorem State.setPc_needsRedraw (t : Word) : (s.setPc t).needsRedraw = s.needsRedraw := rfl
@[simp] theorem State.setPc_fault (t : Word) : (s.setPc t).fault = s.fault := rfl

@[simp] theorem State.setI_memory (v : Word) : (s.setI v).memory = s.memory := rfl
@[simp] theorem State.setI_pc (v : Word) : (s.setI v).pc = s.pc := rfl
@[simp] theorem State.setI_I (v : Word) : (s.setI v).I = v := rfl
@[simp] theorem State.setI_V (v : Word) : (s.setI v).V = s.V := rfl
@[simp] theorem State.setI_DT (v : Word) : (s.setI v).DT = s.DT := rfl
@[simp] theorem State.setI_ST (v : Word) : (s.setI v).ST = s.ST := rfl
@[simp] theorem State.setI_display (v : Word) : (s.setI v).display = s.display := rfl
@[simp] theorem State.setI_needsRedraw (v : Word) : (s.setI v).needsRedraw = s.needsRedraw := rfl
@[simp] theorem State.setI_fault (v : Word) : (s.setI v).fault = s.fault := rfl

@[simp] theorem State.writeV_memory (x : Nibble) (b : Byte) : (s.writeV x b).memory = s.memory := rfl
@[simp] theorem State.writeV_pc (x : Nibble) (b : Byte) : (s.writeV x b).pc = s.pc := rfl
@[simp] theorem State.writeV_I (x : Nibble) (b : Byte) : (s.writeV x b).I = s.I := rfl
@[simp] theorem State.writeV_V (x : Nibble) (b : Byte) : (s.writeV x b).V = s.V.set (regIndex x).val b := rfl
@[simp] theorem State.writeV_DT (x : Nibble) (b : Byte) : (s.writeV x b).DT = s.DT := rfl
@[simp] theorem State.writeV_ST (x : Nibble) (b : Byte) : (s.writeV x b).ST = s.ST := rfl
@[simp] theorem State.writeV_display (x : Nibble) (b : Byte) : (s.writeV x b).display = s.display := rfl
@[simp] theorem State.writeV_needsRedraw (x : Nibble) (b : Byte) : (s.writeV x b).needsRedraw = s.needsRedraw := rfl
@[simp] theorem State.writeV_fault (x : Nibble) (b : Byte) : (s.writeV x b).fault = s.fault := rfl

@[simp] theorem State.setMemory_memory (m : Memory) : (s.setMemory m).memory = m := rfl
@[simp] theorem State.setMemory_pc (m : Memory) : (s.setMemory m).pc = s.pc := rfl
@[simp] theorem State.setMemory_I (m : Memory) : (s.setMemory m).I = s.I := rfl
@[simp] theorem State.setMemory_V (m : Memory) : (s.setMemory m).V = s.V := rfl
@[simp] theorem State.setMemory_DT (m : Memory) : (s.setMemory m).DT = s.DT := rfl
@[simp] theorem State.setMemory_ST (m : Memory) : (s.setMemory m).ST = s.ST := rfl
@[simp] theorem State.setMemory_display (m : Memory) : (s.setMemory m).display = s.display := rfl
@[simp] theorem State.setMemory_needsRedraw (m : Memory) : (s.setMemory m).needsRedraw = s.needsRedraw := rfl
@[simp] theorem State.setMemory_fault (m : Memory) : (s.setMemory m).fault = s.fault := rfl

@[simp] theorem State.setDisplay_memory (d : Display) : (s.setDisplay d).memory = s.memory := rfl
@[simp] theorem State.setDisplay_pc (d : Display) : (s.setDisplay d).pc = s.pc := rfl
@[simp] theorem State.setDisplay_I (d : Display) : (s.setDisplay d).I = s.I := rfl
@[simp] theorem State.setDisplay_V (d : Display) : (s.setDisplay d).V = s.V := rfl
@[simp] theorem State.setDisplay_DT (d : Display) : (s.setDisplay d).DT = s.DT := rfl
@[simp] theorem State.setDisplay_ST (d : Display) : (s.setDisplay d).ST = s.ST := rfl
@[simp] theorem State.setDisplay_display (d : Display) : (s.setDisplay d).display = d := rfl
@[simp] theorem State.setDisplay_needsRedraw (d : Display) : (s.setDisplay d).needsRedraw = s.needsRedraw := rfl
@[simp] theorem State.setDisplay_fault (d : Display) : (s.setDisplay d).fault = s.fault := rfl

@[simp] theorem State.setNeedsRedraw_memory (b : Bool) : (s.setNeedsRedraw b).memory = s.memory := rfl
@[simp] theorem State.setNeedsRedraw_pc (b : Bool) : (s.setNeedsRedraw b).pc = s.pc := rfl
@[simp] theorem State.setNeedsRedraw_I (b : Bool) : (s.setNeedsRedraw b).I = s.I := rfl
@[simp] theorem State.setNeedsRedraw_V (b : Bool) : (s.setNeedsRedraw b).V = s.V := rfl
@[simp] theorem State.setNeedsRedraw_DT (b : Bool) : (s.setNeedsRedraw b).DT = s.DT := rfl
@[simp] theorem State.setNeedsRedraw_ST (b : Bool) : (s.setNeedsRedraw b).ST = s.ST := rfl
@[simp] theorem State.setNeedsRedraw_display (b : Bool) : (s.setNeedsRedraw b).display = s.display := rfl
@[simp] theorem State.setNeedsRedraw_needsRedraw (b : Bool) : (s.setNeedsRedraw b).needsRedraw = b := rfl
@[simp] theorem State.setNeedsRedraw_fault (b : Bool) : (s.setNeedsRedraw b).fault = s.fault := rfl

@[simp] theorem State.setFault_memory (c : Option FaultCause) : (s.setFault c).memory = s.memory := rfl
@[simp] theorem State.setFault_pc (c : Option FaultCause) : (s.setFault c).pc = s.pc := rfl
@[simp] theorem State.setFault_I (c : Option FaultCause) : (s.setFault c).I = s.I := rfl
@[simp] theorem State.setFault_V (c : Option FaultCause) : (s.setFault c).V = s.V := rfl
@[simp] theorem State.setFault_DT (c : Option FaultCause) : (s.setFault c).DT = s.DT := rfl
@[simp] theorem State.setFault_ST (c : Option FaultCause) : (s.setFault c).ST = s.ST := rfl
@[simp] theorem State.setFault_display (c : Option FaultCause) : (s.setFault c).display = s.display := rfl
@[simp] theorem State.setFault_needsRedraw (c : Option FaultCause) : (s.setFault c).needsRedraw = s.needsRedraw := rfl
@[simp] theorem State.setFault_fault (c : Option FaultCause) : (s.setFault c).fault = c := rfl

/-! ### Registers -/

theorem regIndex_inj {x y : Nibble} : (regIndex x).val = (regIndex y).val ↔ x = y := by
  simp [regIndex, BitVec.toNat_inj]

/-- A register read after a register write (R21: no aliases, no hard-wired register). -/
theorem State.readV_writeV (x y : Nibble) (b : Byte) :
    (s.writeV x b).readV y = if x = y then b else s.readV y := by
  simp only [State.readV, State.writeV_V, Vector.getElem_set, regIndex_inj]

@[simp] theorem State.readV_writeV_same (x : Nibble) (b : Byte) : (s.writeV x b).readV x = b := by
  simp [State.readV_writeV]

theorem State.readV_writeV_other {x y : Nibble} (h : x ≠ y) (b : Byte) : (s.writeV x b).readV y = s.readV y := by
  simp [State.readV_writeV, h]

@[simp] theorem State.setPc_readV (t : Word) (x : Nibble) : (s.setPc t).readV x = s.readV x := rfl
@[simp] theorem State.setI_readV (v : Word) (x : Nibble) : (s.setI v).readV x = s.readV x := rfl
@[simp] theorem State.setMemory_readV (m : Memory) (x : Nibble) : (s.setMemory m).readV x = s.readV x := rfl
@[simp] theorem State.setDisplay_readV (d : Display) (x : Nibble) : (s.setDisplay d).readV x = s.readV x := rfl
@[simp] theorem State.setNeedsRedraw_readV (b : Bool) (x : Nibble) : (s.setNeedsRedraw b).readV x = s.readV x := rfl
@[simp] theorem State.setFault_readV (c : Option FaultCause) (x : Nibble) : (s.setFault c).readV x = s.readV x := rfl

/-- Two states with the same fields are the same state; the register file and display compared element by element. -/
theorem State.ext_fields {s t : State} (hm : s.memory = t.memory) (hp : s.pc = t.pc) (hi : s.I = t.I)
    (hv : s.V = t.V) (hd : s.DT = t.DT) (hs : s.ST = t.ST) (hdisp : s.display = t.display)
    (hr : s.needsRedraw = t.needsRedraw) (hf : s.fault = t.fault) : s = t := by
  cases s; cases t; simp_all

end Sys2Proof.Machine
end

