-- ==== Sys2Proof/Laws/Exec.lean ====
section
/-! SUPPORT. Everything the execute phase, the fetch and a step can do, said once (inversion lemmas); the later proofs cite
these and do not unfold `exec`. -/

namespace Sys2Proof.Machine

/-- What `exec` can answer: for each instruction its one effect, for DRW also the raised `SpriteBounds`. -/
inductive Effect (s : State) : Instr → State → Prop
  | cls (n2 n4 : Nibble) : Effect s (.cls n2 n4) ((s.setDisplay blankDisplay).setNeedsRedraw true)
  | jpAddr (nnn : Addr12) : Effect s (.jpAddr nnn) (s.setPc (addressOperand nnn))
  | ldVxByte (x : Nibble) (kk : Byte) : Effect s (.ldVxByte x kk) (s.writeV x kk)
  | addVxByte (x : Nibble) (kk : Byte) : Effect s (.addVxByte x kk) (s.writeV x (s.readV x + kk))
  | ldIAddr (nnn : Addr12) : Effect s (.ldIAddr nnn) (s.setI (addressOperand nnn))
  | drawn (x y n : Nibble) (k : Canvas) (hb : spriteInBounds s n = true)
      (hk : k = drawSprite (s.readV x).toNat (s.readV y).toNat n.toNat (spriteByte s) ⟨s.display, false⟩) :
      Effect s (.drwVxVyN x y n)
        (((s.setDisplay k.display).writeV regVF (collisionFlag k.collision)).setNeedsRedraw true)
  | spriteBounds (x y n : Nibble) (hb : spriteInBounds s n = false) :
      Effect s (.drwVxVyN x y n) (s.setFault (some .spriteBounds))
  | skipped (i : Instr) (hi : i.isUnrecognized = true) : Effect s i s

/-- Every instruction answers a next state, and it is one of its effects. -/
theorem exec_effect (i : Instr) (s : State) : ∃ t, exec i s = .next t ∧ Effect s i t := by
  cases i
  case cls n2 n4 => exact ⟨_, rfl, .cls n2 n4⟩
  case jpAddr nnn => exact ⟨_, rfl, .jpAddr nnn⟩
  case ldVxByte x kk => exact ⟨_, rfl, .ldVxByte x kk⟩
  case addVxByte x kk => exact ⟨_, rfl, .addVxByte x kk⟩
  case ldIAddr nnn => exact ⟨_, rfl, .ldIAddr nnn⟩
  case drwVxVyN x y n =>
    by_cases hb : spriteInBounds s n = true
    · exact ⟨_, by simp only [exec, execDrwVxVyN, hb, if_true]; rfl, .drawn x y n _ hb rfl⟩
    · exact ⟨_, by simp only [exec, execDrwVxVyN, hb]; rfl, .spriteBounds x y n (by simpa using hb)⟩
  all_goals exact ⟨s, rfl, .skipped _ rfl⟩

/-- If `exec` answers `t`, then `t` is one of the instruction's effects. -/
theorem exec_next {i : Instr} {s t : State} (h : exec i s = .next t) : Effect s i t := by
  obtain ⟨t', h', he⟩ := exec_effect i s
  rw [h'] at h
  cases h
  exact he

/-! ### Fetch -/

theorem fetch_legal {s : State} (h : s.pc.toNat ≤ 0xFFE) : fetch s = some (fetchedWord s, s.setPc (s.pc + 2#16)) := by
  have : fetchLegal s = true := by simp only [fetchLegal, Config.memTop, decide_eq_true_eq]; omega
  simp [fetch, this]

theorem fetch_illegal {s : State} (h : 0xFFF ≤ s.pc.toNat) : fetch s = none := by
  have : ¬ (fetchLegal s = true) := by simp only [fetchLegal, Config.memTop, decide_eq_true_eq]; omega
  simp [fetch, this]

/-- The advance of a legal fetch does not wrap (R27). -/
theorem pc_advance_toNat {s : State} (h : s.pc.toNat ≤ 0xFFE) : (s.pc + 2#16).toNat = s.pc.toNat + 2 := by
  rw [BitVec.toNat_add]; simp; omega

/-! ### Step -/

theorem step_running {s : State} (hf : s.fault = none) (h : s.pc.toNat ≤ 0xFFE) :
    step s = exec (decode (fetchedWord s)) (s.setPc (s.pc + 2#16)) := by
  simp [step, hf, fetch_legal h]

theorem step_fetchBounds {s : State} (hf : s.fault = none) (h : 0xFFF ≤ s.pc.toNat) :
    step s = .next (s.setFault (some .fetchBounds)) := by
  simp [step, hf, fetch_illegal h, raiseFault]

theorem step_halted {s : State} {c : FaultCause} (hf : s.fault = some c) : step s = .fault (.halted c) := by
  simp [step, hf, haltedStep]

/-- If a step answers `t`, the core was running, and either the fetch was out of bounds or the fetched word was executed. -/
theorem step_next {s t : State} (h : step s = .next t) :
    s.fault = none ∧
      ((0xFFF ≤ s.pc.toNat ∧ t = s.setFault (some .fetchBounds)) ∨
       (s.pc.toNat ≤ 0xFFE ∧ Effect (s.setPc (s.pc + 2#16)) (decode (fetchedWord s)) t)) := by
  cases hf : s.fault with
  | some c => rw [step_halted hf] at h; cases h
  | none =>
    refine ⟨rfl, ?_⟩
    rcases Nat.lt_or_ge 0xFFE s.pc.toNat with hp | hp
    · rw [step_fetchBounds hf hp] at h
      cases h
      exact .inl ⟨hp, rfl⟩
    · rw [step_running hf hp] at h
      exact .inr ⟨hp, exec_next h⟩

end Sys2Proof.Machine
end

