-- ==== Sys2Proof/Laws/Memory.lean ====
section
/-! SUPPORT. The laws of memory: read after write, the canonical form is kept, equal reads of canonical memories are equal
memories. -/

namespace Sys2Proof.Machine

variable {m : Memory}

@[simp] theorem Memory.byteAt_nil (a : Nat) : Memory.byteAt [] a = Memory.unlisted := rfl

theorem Memory.byteAt_cons (k : Nat) (b : Byte) (m : Memory) (a : Nat) :
    Memory.byteAt ((k, b) :: m) a = if k = a then b else Memory.byteAt m a := rfl

theorem Memory.wfFrom_cons {lo k : Nat} {b : Byte} {m : Memory} :
    Memory.wfFrom lo ((k, b) :: m) = true ↔
      lo ≤ k ∧ k < Config.memSize ∧ b ≠ Memory.unlisted ∧ Memory.wfFrom (k + 1) m = true := by
  simp only [Memory.wfFrom, Bool.and_eq_true, decide_eq_true_eq]
  tauto

theorem Memory.wfFrom_mono {lo lo' : Nat} (h : lo' ≤ lo) (hm : Memory.wfFrom lo m = true) :
    Memory.wfFrom lo' m = true := by
  cases m with
  | nil => rfl
  | cons c m =>
    obtain ⟨k, b⟩ := c
    rw [Memory.wfFrom_cons] at hm ⊢
    exact ⟨h.trans hm.1, hm.2⟩

/-- An address below every listed one reads as unlisted. -/
theorem Memory.byteAt_below {lo a : Nat} (h : a < lo) (hm : Memory.wfFrom lo m = true) :
    m.byteAt a = Memory.unlisted := by
  induction m generalizing lo with
  | nil => rfl
  | cons c m ih =>
    obtain ⟨k, b⟩ := c
    rw [Memory.wfFrom_cons] at hm
    rw [Memory.byteAt_cons, if_neg (by omega), ih (lo := k + 1) (by omega) hm.2.2.2]

/-- An address outside the address space reads as unlisted. -/
theorem Memory.byteAt_outside {a : Nat} (h : Config.memSize ≤ a) {lo : Nat} (hm : Memory.wfFrom lo m = true) :
    m.byteAt a = Memory.unlisted := by
  induction m generalizing lo with
  | nil => rfl
  | cons c m ih =>
    obtain ⟨k, b⟩ := c
    rw [Memory.wfFrom_cons] at hm
    rw [Memory.byteAt_cons, if_neg (by omega), ih hm.2.2.2]

/-- Read after write. -/
theorem Memory.byteAt_write {lo : Nat} (hm : Memory.wfFrom lo m = true) (a : Nat) (b : Byte) (a' : Nat) :
    (m.write a b).byteAt a' = if a = a' then b else m.byteAt a' := by
  induction m generalizing lo with
  | nil =>
    simp only [Memory.write]
    split <;> simp_all [Memory.byteAt]
  | cons c m ih =>
    obtain ⟨k, c⟩ := c
    rw [Memory.wfFrom_cons] at hm
    have hbelow := Memory.byteAt_below (m := m) (lo := k + 1) (a := a)
    simp only [Memory.write]
    split
    · rename_i hlt
      have hk : k ≠ a := by omega
      have := hbelow (by omega) hm.2.2.2
      split <;> by_cases h : a = a' <;> simp_all [Memory.byteAt]
    · split
      · rename_i hnlt heq
        subst heq
        have := hbelow (by omega) hm.2.2.2
        split <;> by_cases h : a = a' <;> simp_all [Memory.byteAt]
      · rename_i hnlt hne
        rw [Memory.byteAt_cons, ih hm.2.2.2, Memory.byteAt_cons]
        by_cases hk : k = a' <;> by_cases h : a = a' <;> simp_all

theorem Memory.write_wfFrom {lo : Nat} (hm : Memory.wfFrom lo m = true) {a : Nat} (hlo : lo ≤ a)
    (ha : a < Config.memSize) (b : Byte) : Memory.wfFrom lo (m.write a b) = true := by
  induction m generalizing lo with
  | nil =>
    simp only [Memory.write]
    split
    · rfl
    · rw [Memory.wfFrom_cons]
      exact ⟨hlo, ha, ‹_›, rfl⟩
  | cons c m ih =>
    obtain ⟨k, c⟩ := c
    have hm' := hm
    rw [Memory.wfFrom_cons] at hm
    obtain ⟨h1, h2, h3, h4⟩ := hm
    simp only [Memory.write]
    split
    · split
      · exact hm'
      · rw [Memory.wfFrom_cons, Memory.wfFrom_cons]
        exact ⟨hlo, ha, ‹_›, by omega, h2, h3, h4⟩
    · split
      · split
        · exact Memory.wfFrom_mono (by omega) h4
        · rw [Memory.wfFrom_cons]
          subst_vars
          exact ⟨hlo, ha, ‹_›, h4⟩
      · rw [Memory.wfFrom_cons]
        exact ⟨h1, h2, h3, ih h4 (by omega)⟩

/-- A write inside the address space keeps the canonical form. -/
theorem Memory.write_wf (hm : m.wf = true) {a : Nat} (ha : a < Config.memSize) (b : Byte) :
    (m.write a b).wf = true :=
  Memory.write_wfFrom hm (Nat.zero_le a) ha b

/-- The loader's writes keep the canonical form. -/
theorem Memory.writeBytes_wf (hm : m.wf = true) {a : Nat} {bs : List Byte} (ha : a + bs.length ≤ Config.memSize) :
    (m.writeBytes a bs).wf = true := by
  induction bs generalizing m a with
  | nil => exact hm
  | cons b bs ih =>
    simp only [List.length_cons] at ha
    exact ih (Memory.write_wf hm (by omega) b) (by omega)

/-- What every address reads as after the loader's writes. -/
theorem Memory.byteAt_writeBytes (hm : m.wf = true) {a : Nat} {bs : List Byte}
    (ha : a + bs.length ≤ Config.memSize) (a' : Nat) :
    (m.writeBytes a bs).byteAt a' = if a ≤ a' ∧ a' < a + bs.length then bs.getD (a' - a) 0 else m.byteAt a' := by
  induction bs generalizing m a with
  | nil =>
    rw [if_neg (by simp only [List.length_nil]; omega)]
    rfl
  | cons b bs ih =>
    simp only [List.length_cons] at ha ⊢
    rw [Memory.writeBytes, ih (Memory.write_wf hm (by omega) b) (by omega), Memory.byteAt_write hm]
    by_cases h : a = a'
    · subst h
      rw [if_neg (by omega), if_pos rfl, if_pos (by omega)]
      simp
    · by_cases h2 : a + 1 ≤ a' ∧ a' < a + 1 + bs.length
      · rw [if_pos h2, if_pos (by omega)]
        obtain ⟨k, rfl⟩ : ∃ k, a' = a + 1 + k := ⟨a' - (a + 1), by omega⟩
        have e1 : a + 1 + k - (a + 1) = k := by omega
        have e2 : a + 1 + k - a = k + 1 := by omega
        simp [e1, e2]
      · rw [if_neg h2, if_neg h, if_neg (by omega)]

end Sys2Proof.Machine
end

