-- ==== Sys2Proof/Laws/PerInstr.lean ====
section
/-! SUPPORT. One law of the instruction as syntax, stated per constructor: the word of an instruction lies in the opcode-table
row of its constructor (30_encoding.md R85, R87). -/

namespace Sys2Proof.Laws.RowMatch

/-- The instruction's word is selected by its own row: `w & mask = match`. -/
def Statement (i : Instr) : Prop := i.row.selects (encode i) = true

theorem selects_formatXYN (op x y n : Nibble) (name : String) :
    (TableRow.mk name 0xF0F0#16 (formatXYN op 0 y 0)).selects (formatXYN op x y n) = true := by
  simp only [TableRow.selects, beq_iff_eq]
  apply BitVec.eq_of_getLsbD_eq
  intro i hi
  rw [BitVec.getLsbD_and, formatXYN_getLsbD, formatXYN_getLsbD]
  interval_cases i <;> simp

theorem selects_formatXB (op x : Nibble) (kk : Byte) (name : String) :
    (TableRow.mk name 0xF000#16 (formatA op 0)).selects (formatXB op x kk) = true := by
  simp only [TableRow.selects, beq_iff_eq]
  apply BitVec.eq_of_getLsbD_eq
  intro i hi
  rw [BitVec.getLsbD_and, formatXB_getLsbD, formatA_getLsbD]
  interval_cases i <;> simp

theorem selects_formatA (op : Nibble) (nnn : Addr12) (name : String) :
    (TableRow.mk name 0xF000#16 (formatA op 0)).selects (formatA op nnn) = true := by
  simp only [TableRow.selects, beq_iff_eq]
  apply BitVec.eq_of_getLsbD_eq
  intro i hi
  rw [BitVec.getLsbD_and, formatA_getLsbD, formatA_getLsbD]
  interval_cases i <;> simp

theorem selects_formatXYN_category (op x y n : Nibble) (name : String) :
    (TableRow.mk name 0xF000#16 (formatA op 0)).selects (formatXYN op x y n) = true := by
  simp only [TableRow.selects, beq_iff_eq]
  apply BitVec.eq_of_getLsbD_eq
  intro i hi
  rw [BitVec.getLsbD_and, formatXYN_getLsbD, formatA_getLsbD]
  interval_cases i <;> simp

theorem cls (n2 n4 : Nibble) : Statement (.cls n2 n4) :=
  selects_formatXYN _ _ _ _ _

theorem jpAddr (nnn : Addr12) : Statement (.jpAddr nnn) :=
  selects_formatA _ _ _

theorem ldVxByte (x : Nibble) (kk : Byte) : Statement (.ldVxByte x kk) :=
  selects_formatXB _ _ _ _

theorem addVxByte (x : Nibble) (kk : Byte) : Statement (.addVxByte x kk) :=
  selects_formatXB _ _ _ _

theorem ldIAddr (nnn : Addr12) : Statement (.ldIAddr nnn) :=
  selects_formatA _ _ _

theorem drwVxVyN (x y n : Nibble) : Statement (.drwVxVyN x y n) :=
  selects_formatXYN_category _ _ _ _ _

theorem unrecY0 (n2 n4 : Nibble) : Statement (.unrecY0 n2 n4) :=
  selects_formatXYN _ _ _ _ _

theorem unrecY1 (n2 n4 : Nibble) : Statement (.unrecY1 n2 n4) :=
  selects_formatXYN _ _ _ _ _

theorem unrecY2 (n2 n4 : Nibble) : Statement (.unrecY2 n2 n4) :=
  selects_formatXYN _ _ _ _ _

theorem unrecY3 (n2 n4 : Nibble) : Statement (.unrecY3 n2 n4) :=
  selects_formatXYN _ _ _ _ _

theorem unrecY4 (n2 n4 : Nibble) : Statement (.unrecY4 n2 n4) :=
  selects_formatXYN _ _ _ _ _

theorem unrecY5 (n2 n4 : Nibble) : Statement (.unrecY5 n2 n4) :=
  selects_formatXYN _ _ _ _ _

theorem unrecY6 (n2 n4 : Nibble) : Statement (.unrecY6 n2 n4) :=
  selects_formatXYN _ _ _ _ _

theorem unrecY7 (n2 n4 : Nibble) : Statement (.unrecY7 n2 n4) :=
  selects_formatXYN _ _ _ _ _

theorem unrecY8 (n2 n4 : Nibble) : Statement (.unrecY8 n2 n4) :=
  selects_formatXYN _ _ _ _ _

theorem unrecY9 (n2 n4 : Nibble) : Statement (.unrecY9 n2 n4) :=
  selects_formatXYN _ _ _ _ _

theorem unrecYA (n2 n4 : Nibble) : Statement (.unrecYA n2 n4) :=
  selects_formatXYN _ _ _ _ _

theorem unrecYB (n2 n4 : Nibble) : Statement (.unrecYB n2 n4) :=
  selects_formatXYN _ _ _ _ _

theorem unrecYC (n2 n4 : Nibble) : Statement (.unrecYC n2 n4) :=
  selects_formatXYN _ _ _ _ _

theorem unrecYD (n2 n4 : Nibble) : Statement (.unrecYD n2 n4) :=
  selects_formatXYN _ _ _ _ _

theorem unrecYF (n2 n4 : Nibble) : Statement (.unrecYF n2 n4) :=
  selects_formatXYN _ _ _ _ _

theorem unrecOp2 (rest : Addr12) : Statement (.unrecOp2 rest) :=
  selects_formatA _ _ _

theorem unrecOp3 (rest : Addr12) : Statement (.unrecOp3 rest) :=
  selects_formatA _ _ _

theorem unrecOp4 (rest : Addr12) : Statement (.unrecOp4 rest) :=
  selects_formatA _ _ _

theorem unrecOp5 (rest : Addr12) : Statement (.unrecOp5 rest) :=
  selects_formatA _ _ _

theorem unrecOp8 (rest : Addr12) : Statement (.unrecOp8 rest) :=
  selects_formatA _ _ _

theorem unrecOp9 (rest : Addr12) : Statement (.unrecOp9 rest) :=
  selects_formatA _ _ _

theorem unrecOpB (rest : Addr12) : Statement (.unrecOpB rest) :=
  selects_formatA _ _ _

theorem unrecOpC (rest : Addr12) : Statement (.unrecOpC rest) :=
  selects_formatA _ _ _

theorem unrecOpE (rest : Addr12) : Statement (.unrecOpE rest) :=
  selects_formatA _ _ _

theorem unrecOpF (rest : Addr12) : Statement (.unrecOpF rest) :=
  selects_formatA _ _ _

end Sys2Proof.Laws.RowMatch
end

