-- ==== Sys2Proof/Laws/Ports.lean ====
section
/-! SUPPORT. What the ports can do: the `step` port either ignores the request or takes a step; the `load` port writes one
byte of the image range. -/

namespace Sys2Proof.Machine

theorem stepPort_cases (s : State) : stepPort s = s ∨ step s = .next (stepPort s) := by
  unfold stepPort
  cases h : step s <;> simp

theorem stepPort_halted {s : State} {c : FaultCause} (hf : s.fault = some c) : stepPort s = s := by
  simp [stepPort, step_halted hf]

theorem loadPort_inside {a : Nat} (h : 0x200 ≤ a) (h' : a ≤ 0xFFF) (b : Byte) (s : State) :
    loadPort a b s = some (s.setMemory (s.memory.write a b)) := by
  simp [loadPort]; omega

theorem loadPort_some {a : Nat} {b : Byte} {s t : State} (h : loadPort a b s = some t) :
    0x200 ≤ a ∧ a ≤ 0xFFF ∧ t = s.setMemory (s.memory.write a b) := by
  unfold loadPort at h
  split at h
  · cases h
    exact ⟨‹_ ∧ _›.1, ‹_ ∧ _›.2, rfl⟩
  · cases h

/-- The acknowledge and the `load` port do not write the latch: reset alone clears it (R36). -/
@[simp] theorem redrawAck_fault (s : State) : (redrawAck s).fault = s.fault := rfl

theorem loadPort_fault {a : Nat} {b : Byte} {s t : State} (h : loadPort a b s = some t) : t.fault = s.fault := by
  obtain ⟨-, -, rfl⟩ := loadPort_some h
  rfl

/-- The `load` port keeps the canonical form of memory. -/
theorem loadPort_wf {a : Nat} {b : Byte} {s t : State} (hs : s.memory.wf = true) (h : loadPort a b s = some t) :
    t.memory.wf = true := by
  obtain ⟨-, ha, rfl⟩ := loadPort_some h
  exact Memory.write_wf hs (Nat.lt_succ_of_le ha) b

end Sys2Proof.Machine
end

