-- ==== Sys2Proof/Laws/Run.lean ====
section
/-! SUPPORT. Runs of many steps, by one step at a time; the induction "one step keeps it, so every run keeps it" said once. -/

namespace Sys2Proof.Machine

theorem coreRun_succ_next (M : Host.Core) {n : Nat} {s t : M.State} :
    M.run (n + 1) s = .next t ↔ ∃ u, M.step s = .next u ∧ M.run n u = .next t := by
  simp only [Host.Core.run]
  cases M.step s <;> simp

/-- A run of `n + 1` steps ends at `t` exactly when one step and then `n` more end there. -/
theorem run_succ_next {n : Nat} {s t : State} :
    core.run (n + 1) s = .next t ↔ ∃ u : State, step s = .next u ∧ core.run n u = .next t :=
  coreRun_succ_next core

/-- What every step keeps, every run keeps. -/
theorem run_keeps {P : State → Prop} (hstep : ∀ s t : State, P s → step s = .next t → P t) {n : Nat} {s t : State}
    (hs : P s) (h : core.run n s = .next t) : P t := by
  induction n generalizing s with
  | zero => cases h; exact hs
  | succ n ih =>
    obtain ⟨u, hu, hr⟩ := run_succ_next.1 h
    exact ih (hstep s u hs hu) hr

end Sys2Proof.Machine
end

