-- ==== Sys2Proof/Laws/Sprite.lean ====
section
/-! SUPPORT. The laws of the sprite compositor: what one pixel step, one sprite row and one whole sprite do to every pixel of
the display and to the collision. -/

namespace Sys2Proof.Machine

/-! ### One bit of a row word -/

theorem setRowBit_getLsbD (w : RowWord) {p : Nat} (hp : p < 64) (v : Bool) {q : Nat} (hq : q < 64) :
    (setRowBit w p v).getLsbD q = if q = p then v else w.getLsbD q := by
  have key : (1#64 <<< p).getLsbD q = decide (q = p) := by
    rw [BitVec.getLsbD_shiftLeft]
    by_cases h : q < p
    · simp [h, show q ≠ p by omega]
    · by_cases h2 : q = p
      · subst h2; simp [hq]
      · have : q - p ≠ 0 := by omega
        simp [h, h2, hq, this]
  unfold setRowBit
  cases v
  · rw [if_neg (by simp), BitVec.getLsbD_and, BitVec.getLsbD_not, key]
    by_cases h : q = p <;> simp [h, hq, hp]
  · rw [if_pos rfl, BitVec.getLsbD_or, key]
    by_cases h : q = p <;> simp [h]

theorem columnBit_lt (c : Fin 64) : columnBit c < 64 := by
  unfold columnBit; omega

theorem columnBit_inj {c c' : Fin 64} : columnBit c = columnBit c' ↔ c = c' := by
  unfold columnBit; omega

/-! ### Coordinates (R147: the columns and the rows of one draw are distinct) -/

theorem targetColumn_inj {x0 x x' : Nat} (hx : x < 64) (hx' : x' < 64) :
    targetColumn x0 x = targetColumn x0 x' ↔ x = x' := by
  simp only [targetColumn, Fin.mk.injEq]; omega

theorem targetRow_inj {y0 y y' : Nat} (hy : y < 32) (hy' : y' < 32) :
    targetRow y0 y = targetRow y0 y' ↔ y = y' := by
  simp only [targetRow, Fin.mk.injEq]; omega

/-! ### One pixel (the body of the loop of R140) -/

theorem drawPixel_pixel (x0 : Nat) (r : Fin 32) (b : Byte) (k : Canvas) (x : Nat) (r' : Fin 32) (c' : Fin 64) :
    Display.pixel (drawPixel x0 r b k x).display r' c' =
      if r' = r ∧ c' = targetColumn x0 x then Display.pixel k.display r' c' ^^ spriteBit b x
      else Display.pixel k.display r' c' := by
  unfold Display.pixel drawPixel
  simp only [Vector.getElem_set]
  by_cases hr : r' = r
  · subst hr
    simp only [if_true, setRowBit_getLsbD _ (columnBit_lt _) _ (columnBit_lt _), columnBit_inj, true_and]
    by_cases hc : c' = targetColumn x0 x
    · subst hc; simp
    · simp [hc]
  · have : r.val ≠ r'.val := fun h => hr (Fin.ext h.symm)
    simp [hr, this]

theorem drawPixel_collision (x0 : Nat) (r : Fin 32) (b : Byte) (k : Canvas) (x : Nat) :
    (drawPixel x0 r b k x).collision =
      (k.collision || (spriteBit b x && Display.pixel k.display r (targetColumn x0 x))) := rfl

/-! ### One sprite row -/

/-- The first `m` columns of a sprite row: what each pixel becomes, and the collision. -/
theorem drawColumns_spec (x0 : Nat) (r : Fin 32) (b : Byte) (k : Canvas) {m : Nat} (hm : m ≤ 8) :
    let k' := (List.range m).foldl (drawPixel x0 r b) k
    (∀ x < m, Display.pixel k'.display r (targetColumn x0 x) =
        (Display.pixel k.display r (targetColumn x0 x) ^^ spriteBit b x)) ∧
    (∀ r' c', (r' ≠ r ∨ ∀ x < m, targetColumn x0 x ≠ c') →
        Display.pixel k'.display r' c' = Display.pixel k.display r' c') ∧
    (k'.collision = true ↔ k.collision = true ∨
        ∃ x < m, spriteBit b x = true ∧ Display.pixel k.display r (targetColumn x0 x) = true) := by
  induction m with
  | zero => simp
  | succ m ih =>
    obtain ⟨ih1, ih2, ih3⟩ := ih (by omega)
    simp only [List.range_succ, List.foldl_append, List.foldl_cons, List.foldl_nil]
    set k₁ := (List.range m).foldl (drawPixel x0 r b) k
    have hfresh : Display.pixel k₁.display r (targetColumn x0 m) = Display.pixel k.display r (targetColumn x0 m) :=
      ih2 r _ (.inr fun x hx he => by have := (targetColumn_inj (by omega) (by omega)).1 he; omega)
    refine ⟨fun x hx => ?_, fun r' c' h => ?_, ?_⟩
    · rw [drawPixel_pixel]
      by_cases hxm : x = m
      · subst hxm; simp [hfresh]
      · have hne : targetColumn x0 x ≠ targetColumn x0 m :=
          fun he => hxm ((targetColumn_inj (by omega) (by omega)).1 he)
        simp [hne, ih1 x (by omega)]
    · rw [drawPixel_pixel, if_neg, ih2 r' c' (h.imp id fun h x hx => h x (by omega))]
      rintro ⟨h1, h2⟩
      rcases h with h | h
      · exact h h1
      · exact h m (by omega) h2.symm
    · rw [drawPixel_collision, hfresh]
      simp only [Bool.or_eq_true, Bool.and_eq_true, ih3]
      constructor
      · rintro ((h | ⟨x, hx, h⟩) | h)
        · exact .inl h
        · exact .inr ⟨x, by omega, h⟩
        · exact .inr ⟨m, by omega, h⟩
      · rintro (h | ⟨x, hx, h⟩)
        · exact .inl (.inl h)
        · by_cases hxm : x = m
          · subst hxm; exact .inr h
          · exact .inl (.inr ⟨x, by omega, h⟩)

/-- One sprite row (R140, R141): the 8 target pixels are XORed with the sprite byte, no other pixel changes, and a lit pixel
under a 1 bit is a collision. -/
theorem drawRow_spec (x0 : Nat) (r : Fin 32) (b : Byte) (k : Canvas) :
    (∀ x < 8, Display.pixel (drawRow x0 r b k).display r (targetColumn x0 x) =
        (Display.pixel k.display r (targetColumn x0 x) ^^ spriteBit b x)) ∧
    (∀ r' c', (r' ≠ r ∨ ∀ x < 8, targetColumn x0 x ≠ c') →
        Display.pixel (drawRow x0 r b k).display r' c' = Display.pixel k.display r' c') ∧
    ((drawRow x0 r b k).collision = true ↔ k.collision = true ∨
        ∃ x < 8, spriteBit b x = true ∧ Display.pixel k.display r (targetColumn x0 x) = true) :=
  drawColumns_spec x0 r b k (Nat.le_refl 8)

/-! ### The whole sprite -/

theorem drawSprite_succ (x0 y0 n : Nat) (bytes : Nat → Byte) (k : Canvas) :
    drawSprite x0 y0 (n + 1) bytes k = drawRow x0 (targetRow y0 n) (bytes n) (drawSprite x0 y0 n bytes k) := by
  simp [drawSprite, List.range_succ]

@[simp] theorem drawSprite_zero (x0 y0 : Nat) (bytes : Nat → Byte) (k : Canvas) :
    drawSprite x0 y0 0 bytes k = k := rfl

/-- The whole sprite (R140, R147): the target pixels are XORed with their sprite bits, no other pixel changes, and a lit pixel
under a 1 bit is a collision. The 32-row bound keeps the target rows distinct; a sprite has at most 15. -/
theorem drawSprite_spec (x0 y0 : Nat) (bytes : Nat → Byte) (k : Canvas) {n : Nat} (hn : n ≤ 32) :
    (∀ j < n, ∀ i < 8, Display.pixel (drawSprite x0 y0 n bytes k).display (targetRow y0 j) (targetColumn x0 i) =
        (Display.pixel k.display (targetRow y0 j) (targetColumn x0 i) ^^ spriteBit (bytes j) i)) ∧
    (∀ r c, (∀ j < n, ∀ i < 8, ¬ (targetRow y0 j = r ∧ targetColumn x0 i = c)) →
        Display.pixel (drawSprite x0 y0 n bytes k).display r c = Display.pixel k.display r c) ∧
    ((drawSprite x0 y0 n bytes k).collision = true ↔ k.collision = true ∨
        ∃ j < n, ∃ i < 8, spriteBit (bytes j) i = true ∧ Display.pixel k.display (targetRow y0 j) (targetColumn x0 i) = true) := by
  induction n with
  | zero => simp
  | succ n ih =>
    obtain ⟨ih1, ih2, ih3⟩ := ih (by omega)
    rw [drawSprite_succ]
    generalize hk₁ : drawSprite x0 y0 n bytes k = k₁ at *
    obtain ⟨r1, r2, r3⟩ := drawRow_spec x0 (targetRow y0 n) (bytes n) k₁
    have fresh : ∀ c, Display.pixel k₁.display (targetRow y0 n) c = Display.pixel k.display (targetRow y0 n) c := by
      intro c
      apply ih2
      rintro j hj i hi ⟨h, _⟩
      have := (targetRow_inj (by omega) (by omega)).1 h
      omega
    refine ⟨fun j hj i hi => ?_, fun r c h => ?_, ?_⟩
    · by_cases hjn : j = n
      · subst hjn; rw [r1 i hi, fresh]
      · rw [r2 _ _ (.inl fun h => hjn ((targetRow_inj (by omega) (by omega)).1 h)), ih1 j (by omega) i hi]
    · rw [r2, ih2 r c fun j hj i hi => h j (by omega) i hi]
      by_cases hr : r = targetRow y0 n
      · exact .inr fun i hi hc => h n (by omega) i hi ⟨hr.symm, hc⟩
      · exact .inl hr
    · rw [r3, ih3]
      constructor
      · rintro ((h | ⟨j, hj, h⟩) | ⟨i, hi, h1, h2⟩)
        · exact .inl h
        · exact .inr ⟨j, by omega, h⟩
        · rw [fresh] at h2; exact .inr ⟨n, by omega, i, hi, h1, h2⟩
      · rintro (h | ⟨j, hj, i, hi, h1, h2⟩)
        · exact .inl (.inl h)
        · by_cases hjn : j = n
          · subst hjn; exact .inr ⟨i, hi, h1, by rw [fresh]; exact h2⟩
          · exact .inl (.inr ⟨j, by omega, i, hi, h1, h2⟩)

/-- A display row the sprite does not cover is unchanged as a whole word. -/
theorem drawColumns_row (x0 : Nat) (r : Fin 32) (b : Byte) (k : Canvas) (xs : List Nat) {r' : Fin 32} (h : r' ≠ r) :
    (xs.foldl (drawPixel x0 r b) k).display[r'.val] = k.display[r'.val] := by
  induction xs generalizing k with
  | nil => rfl
  | cons x xs ih =>
    have hv : r.val ≠ r'.val := fun he => h (Fin.ext he.symm)
    rw [List.foldl_cons, ih]
    simp [drawPixel, hv]

theorem drawRow_row (x0 : Nat) (r : Fin 32) (b : Byte) (k : Canvas) {r' : Fin 32} (h : r' ≠ r) :
    (drawRow x0 r b k).display[r'.val] = k.display[r'.val] :=
  drawColumns_row x0 r b k _ h

/-- Two displays with the same pixels are the same display. -/
theorem Display.ext_pixel {d d' : Display} (h : ∀ r c, Display.pixel d r c = Display.pixel d' r c) : d = d' := by
  ext r hr p hp
  have := h ⟨r, hr⟩ ⟨63 - p, by omega⟩
  simpa [Display.pixel, columnBit, show 63 - (63 - p) = p by omega, BitVec.getLsbD_eq_getElem hp] using this

end Sys2Proof.Machine
end

