-- ==== Sys2Proof/Tests/Slice0.lean ====
section
/-! SUPPORT. The model's own tests: words and vectors of spec/95_test_vectors.md (S-, V- and P- names), the well-formedness
smoke, and for each statement with hypotheses a concrete state that meets them. Expected values come from the spec. -/

namespace Sys2Proof.Machine

/-! ### Helpers: small states -/

/-- The next state of an outcome. -/
def afterOf (o : Host.Outcome State Fault Refusal) : Option State :=
  match o with
  | .next t => some t
  | .fault _ => none
  | .refused _ => none

/-- The reset state with the two bytes of `w` at `a` and `pc = a`. -/
def atWord (a : Nat) (w : Word) : State :=
  { State.reset with memory := Memory.writeBytes [] a [hiByte w, loByte w], pc := BitVec.ofNat 16 a }

/-- The state of the draw vectors of 95_test_vectors.md 2.6: the word at 0x200, `I = 0x300`, the sprite at 0x300. -/
def drawState (w : Word) (v0 v1 vF : Byte) (sprite : List Byte) : State :=
  (((({ atWord 0x200 w with I := 0x300#16 }).setMemory ((atWord 0x200 w).memory.writeBytes 0x300 sprite)).writeV 0x0#4 v0).writeV
    0x1#4 v1).writeV 0xF#4 vF

/-- One row of the display after a step. -/
def rowAfter (s : State) (r : Fin 32) : Option RowWord := (afterOf (step s)).map fun t => t.display[r.val]

/-- A register after a step. -/
def regAfter (s : State) (x : Nibble) : Option Byte := (afterOf (step s)).map fun t => t.readV x

/-- `pc` after a step. -/
def pcAfter (s : State) : Option Word := (afterOf (step s)).map fun t => t.pc

/-! ### Decoding: one word of each row, bits written out from the patterns of 30_encoding.md R85 and R87 -/

theorem test_decode_cls : decode 0b0000101011100101#16 = .cls 0xA#4 0x5#4 := by decide
theorem test_decode_jp : decode 0b0001101010111100#16 = .jpAddr 0xABC#12 := by decide
theorem test_decode_ldV : decode 0b0110101000101011#16 = .ldVxByte 0xA#4 0x2B#8 := by decide
theorem test_decode_addV : decode 0b0111111100000001#16 = .addVxByte 0xF#4 0x01#8 := by decide
theorem test_decode_ldI : decode 0b1010001000001100#16 = .ldIAddr 0x20C#12 := by decide
theorem test_decode_drw : decode 0b1101000100100011#16 = .drwVxVyN 0x1#4 0x2#4 0x3#4 := by decide
theorem test_decode_unrecY0 : decode 0b0000100100000110#16 = .unrecY0 0x9#4 0x6#4 := by decide
theorem test_decode_unrecY1 : decode 0b0000100100010110#16 = .unrecY1 0x9#4 0x6#4 := by decide
theorem test_decode_unrecY2 : decode 0b0000100100100110#16 = .unrecY2 0x9#4 0x6#4 := by decide
theorem test_decode_unrecY3 : decode 0b0000100100110110#16 = .unrecY3 0x9#4 0x6#4 := by decide
theorem test_decode_unrecY4 : decode 0b0000100101000110#16 = .unrecY4 0x9#4 0x6#4 := by decide
theorem test_decode_unrecY5 : decode 0b0000100101010110#16 = .unrecY5 0x9#4 0x6#4 := by decide
theorem test_decode_unrecY6 : decode 0b0000100101100110#16 = .unrecY6 0x9#4 0x6#4 := by decide
theorem test_decode_unrecY7 : decode 0b0000100101110110#16 = .unrecY7 0x9#4 0x6#4 := by decide
theorem test_decode_unrecY8 : decode 0b0000100110000110#16 = .unrecY8 0x9#4 0x6#4 := by decide
theorem test_decode_unrecY9 : decode 0b0000100110010110#16 = .unrecY9 0x9#4 0x6#4 := by decide
theorem test_decode_unrecYA : decode 0b0000100110100110#16 = .unrecYA 0x9#4 0x6#4 := by decide
theorem test_decode_unrecYB : decode 0b0000100110110110#16 = .unrecYB 0x9#4 0x6#4 := by decide
theorem test_decode_unrecYC : decode 0b0000100111000110#16 = .unrecYC 0x9#4 0x6#4 := by decide
theorem test_decode_unrecYD : decode 0b0000100111010110#16 = .unrecYD 0x9#4 0x6#4 := by decide
theorem test_decode_unrecYF : decode 0b0000100111110110#16 = .unrecYF 0x9#4 0x6#4 := by decide
theorem test_decode_unrecOp2 : decode 0b0010000111100101#16 = .unrecOp2 0x1E5#12 := by decide
theorem test_decode_unrecOp3 : decode 0b0011000111100101#16 = .unrecOp3 0x1E5#12 := by decide
theorem test_decode_unrecOp4 : decode 0b0100000111100101#16 = .unrecOp4 0x1E5#12 := by decide
theorem test_decode_unrecOp5 : decode 0b0101000111100101#16 = .unrecOp5 0x1E5#12 := by decide
theorem test_decode_unrecOp8 : decode 0b1000000111100101#16 = .unrecOp8 0x1E5#12 := by decide
theorem test_decode_unrecOp9 : decode 0b1001000111100101#16 = .unrecOp9 0x1E5#12 := by decide
theorem test_decode_unrecOpB : decode 0b1011000111100101#16 = .unrecOpB 0x1E5#12 := by decide
theorem test_decode_unrecOpC : decode 0b1100000111100101#16 = .unrecOpC 0x1E5#12 := by decide
theorem test_decode_unrecOpE : decode 0b1110000111100101#16 = .unrecOpE 0x1E5#12 := by decide
theorem test_decode_unrecOpF : decode 0b1111000111100101#16 = .unrecOpF 0x1E5#12 := by decide

/-- A stream too short for a word is rejected by name (log entry 13). -/
theorem test_decode_truncated : decodeBytes [0x12#8] = .error (.truncated 1) := by decide

/-- The table word of JP, laid out high-order byte first. -/
theorem test_decodeTableWord : decodeTableWord 16 0x1ABC = some (.jpAddr 0xABC#12) := by decide

/-! ### Well-formedness: an ill-formed value for each check -/

theorem test_wf_register : isRegNumber 15 = true ∧ isRegNumber 16 = false := by decide
theorem test_wf_byte : isByte 255 = true ∧ isByte 256 = false := by decide
theorem test_wf_address : isAddress 4095 = true ∧ isAddress 4096 = false := by decide
theorem test_wf_height : isHeight 15 = true ∧ isHeight 16 = false := by decide
theorem test_wf_nibble : isNibble 15 = true ∧ isNibble 16 = false := by decide
theorem test_wf_word : isWord 65535 = true ∧ isWord 65536 = false := by decide
theorem test_wf_image : isImage (List.replicate 3584 0#8) = true ∧ isImage (List.replicate 3585 0#8) = false := by
  unfold isImage; rw [List.length_replicate, List.length_replicate]; decide
theorem test_wf_instruction : (Instr.drwVxVyN 0xF#4 0xF#4 0xF#4).wellFormed = true := by decide
theorem test_asm_refuses_register : assemble [.ldV 16 0] = none := by decide
theorem test_asm_refuses_byte : assemble [.addV 0 256] = none := by decide
theorem test_asm_refuses_address : assemble [.jp (.number 4096)] = none := by decide
theorem test_asm_refuses_height : assemble [.drw 0 0 16] = none := by decide
theorem test_asm_refuses_unknown_label : assemble [.ldI (.label "sprite")] = none := by decide
theorem test_asm_refuses_second_label : assemble [.label "a", .label "a"] = none := by decide

/-! ### Fetch, reset, memory -/

/-- S1: bytes 12 34 at `pc` give `JP 0x234`. -/
theorem test_S1_fetch : (fetch (atWord 0x200 0x1234#16)).map (fun p => (p.1, p.2.pc)) = some (0x1234#16, 0x202#16) ∧
    pcAfter (atWord 0x200 0x1234#16) = some 0x234#16 := by decide
/-- V-F2: an odd `pc` is legal. -/
theorem test_VF2_odd_pc : pcAfter (atWord 0x201 0xFF70#16) = some 0x203#16 ∧
    diagOut (atWord 0x201 0xFF70#16) = some ⟨0xFF70#16, 0x201#16⟩ := by decide
/-- V-F3: the last legal fetch. -/
theorem test_VF3_top : pcAfter (atWord 0xFFE 0x0000#16) = some 0x1000#16 := by decide
/-- V-F4 to V-F6: fetches out of bounds. -/
theorem test_VF4_fetch_bounds : afterOf (step { State.reset with pc := 0x1000#16 }) =
    some { State.reset with pc := 0x1000#16, fault := some .fetchBounds } := by decide
theorem test_VF6_no_wrap : (afterOf (step { State.reset with pc := 0xFFFF#16 })).map faultOut = some 1#2 := by decide
/-- V-F7: a halted core takes no step, and the port ignores the request. -/
theorem test_VF7_halted : afterOf (step { State.reset with fault := some .fetchBounds }) = none ∧
    stepPort { State.reset with fault := some .fetchBounds } = { State.reset with fault := some .fetchBounds } := by decide
/-- A byte of unlisted memory reads 0 (R41); an address outside has no byte (R50). -/
theorem test_memRead_edges : State.reset.memRead 0xFFF = some 0x00#8 ∧ State.reset.memRead 0x1000 = none := by decide
/-- Writing the unlisted value removes the entry. -/
theorem test_write_canonical : Memory.write (Memory.write [] 5 0x07#8) 5 0x00#8 = [] := by decide
theorem test_reset_wf : Memory.wf State.reset.memory = true := by decide

/-! ### One instruction each -/

/-- V-C1. -/
theorem test_VC1_cls : let s := { (atWord 0x212 0x00E0#16).writeV 0x0#4 0x40#8 with
      display := State.reset.display.set 31 0xF00000000000000F#64 }
    rowAfter s 31 = some 0x0000000000000000#64 ∧ regAfter s 0x0#4 = some 0x40#8 ∧ pcAfter s = some 0x214#16 ∧
      (afterOf (step s)).map needsRedrawOut = some true := by decide
/-- V-J1 and V-J2: a jump, and the jump to itself. -/
theorem test_VJ1_jp : pcAfter (atWord 0x200 0x1ABC#16) = some 0x0ABC#16 := by decide
theorem test_VJ2_self_jump : afterOf (step (atWord 0x20A 0x120A#16)) = some (atWord 0x20A 0x120A#16) := by decide
/-- V-L1, V-L3. -/
theorem test_VL1_ld : regAfter ((atWord 0x200 0x63FF#16).writeV 0x3#4 0x12#8) 0x3#4 = some 0xFF#8 := by decide
theorem test_VL3_ld_vf : regAfter ((atWord 0x200 0x6FAB#16).writeV 0xF#4 0x01#8) 0xF#4 = some 0xAB#8 := by decide
/-- V-A2, V-A8. -/
theorem test_VA2_add_no_carry : let s := ((atWord 0x200 0x7002#16).writeV 0x0#4 0xFF#8).writeV 0xF#4 0x07#8
    regAfter s 0x0#4 = some 0x01#8 ∧ regAfter s 0xF#4 = some 0x07#8 := by decide
theorem test_VA8_add_vf : regAfter ((atWord 0x200 0x7FFE#16).writeV 0xF#4 0x05#8) 0xF#4 = some 0x03#8 := by decide
/-- V-I3. -/
theorem test_VI3_ldI : (afterOf (step (atWord 0x200 0xAFFF#16))).map (fun t => t.I) = some 0x0FFF#16 := by decide
/-- V-D10: vertical and horizontal wrap. -/
theorem test_VD10_draw_wraps : (afterOf (step (drawState 0xD012#16 60#8 31#8 0#8 [0xFF#8, 0x81#8]))).map
    (fun t => (t.display[31], t.display[0], t.readV 0xF#4)) =
      some (0xF00000000000000F#64, 0x1000000000000008#64, 0x00#8) := by decide +kernel
/-- V-D20: both coordinates from VF, then the collision into VF. -/
theorem test_VD20_draw_vf : let s := { drawState 0xDFF1#16 0#8 0#8 33#8 [0xC0#8] with
      display := State.reset.display.set 1 0x0000000040000000#64 }
    rowAfter s 1 = some 0x0000000020000000#64 ∧ regAfter s 0xF#4 = some 0x01#8 := by decide
/-- V-D9 in the row-at-a-time form of R145. -/
theorem test_VD9_row_form : (drawSpriteRows 124 33 1 (fun _ => 0xA5#8) ⟨State.reset.display, false⟩).display[1] =
    0x500000000000000A#64 := by decide
/-- V-D22: the fault leaves VF and the display, and `pc` advanced. -/
theorem test_VD22_sprite_bounds : let s := { drawState 0xD012#16 0#8 0#8 5#8 [] with I := 0xFFF#16 }
    afterOf (step s) = some { s with pc := 0x202#16, fault := some .spriteBounds } := by decide
/-- V-D25: height 0 looks at no address. -/
theorem test_VD25_height_zero : let s := { drawState 0xD010#16 0#8 0#8 7#8 [] with I := 0xFFFF#16 }
    regAfter s 0xF#4 = some 0x00#8 ∧ (afterOf (step s)).map faultOut = some 0#2 := by decide
/-- V-U1. -/
theorem test_VU1_unrecognized : let s := (atWord 0x20A 0x8014#16).writeV 0x0#4 0x3C#8
    afterOf (step s) = some { s with pc := 0x20C#16 } ∧ diagOut s = some ⟨0x8014#16, 0x20A#16⟩ := by decide

/-! ### Host side -/

/-- V-C2 and the handshake: the flag set by a CLS of a blank display is cleared by the acknowledge, not by a step. -/
theorem test_handshake : (afterOf (step (atWord 0x200 0x00E0#16))).map (fun t => (t.needsRedraw, (redrawAck t).needsRedraw)) =
    some (true, false) := by decide
/-- R181: a step with a redraw pending is no host action; R37: no load after the first step. -/
theorem test_protocol : (Session.mk { State.reset with needsRedraw := true } true).accept .step = none ∧
    (Session.mk State.reset true).accept (.load 0x200 0#8) = none ∧
    Session.start.accept (.load 0x1FF 0#8) = none ∧ Session.start.accept (.load 0x1000 0#8) = none := by decide
/-- S9: 250 ms owed, two steps, 50 ms of debt kept. -/
theorem test_S9_pacing : let p := Pacer.tick 1250 ⟨State.reset, 1000, []⟩
    p.lastStepTime = 1200 ∧ p.core.pc = 0x204#16 := by decide
/-- The image of P2 from its source. -/
theorem test_P2_assembles : assemble [.ldI (.label "sprite"), .ldV 0 10, .ldV 1 5, .drw 0 1 3, .label "end",
      .jp (.label "end"), .label "sprite", .db [0x3C, 0xC3, 0xFF]] =
    some [0xA2#8, 0x0A#8, 0x60#8, 0x0A#8, 0x61#8, 0x05#8, 0xD0#8, 0x13#8, 0x12#8, 0x08#8, 0x3C#8, 0xC3#8, 0xFF#8] := by decide
/-- The first lines of P2 as text, with its comment and its label. -/
theorem test_P2_source : assembleSource "LD  I, sprite ; at the end\nsprite: DB 0x3C, 255\nDRW V0, VA, 3" =
    some [0xA2#8, 0x02#8, 0x3C#8, 0xFF#8, 0xD0#8, 0xA3#8] := by decide +kernel
/-- Text that is no statement of R91. -/
theorem test_source_refused : parseSource "LD VG, 1" = none ∧ parseSource "DRW V0 V1, 3" = none ∧ parseSource "RET" = none := by
  decide +kernel
/-- A label is no operand of DW or DB, nor a byte (log entry 14). -/
theorem test_label_operands : parseSource "DW sprite" = none ∧ parseSource "DB sprite" = none ∧
    parseSource "LD V0, sprite" = none ∧ parseSource "JP sprite" = some [.jp (.label "sprite")] := by
  decide +kernel
/-- R93. -/
theorem test_disassemble : disassemble (decode 0x6A2B#16) = "LD VA, 0x2B" ∧ disassemble (decode 0xA20C#16) = "LD I, 0x20C" ∧
    disassemble (decode 0x8014#16) = "DW 0x8014" ∧ disassemble (decode 0x00E0#16) = "CLS" := by decide

/-! ### Witnesses: a state and operands that meet the hypotheses of each statement -/

/-- LoadPlacesTheImageInAnyOrder, and its largest image. -/
theorem witness_load : [HostInput.load 0x201 0x34#8, .load 0x200 0x12#8].Perm
    ([0x12#8, 0x34#8].mapIdx fun k b => HostInput.load (0x200 + k) b) := List.Perm.swap _ _ _
theorem witness_load_largest : (List.replicate 3584 0x01#8).length ≤ 3584 ∧ loadImage (List.replicate 3584 0x01#8) ≠ none := by
  unfold loadImage isImage; rw [List.length_replicate]; decide
/-- RedrawFlagMarksClsAndDraw: a CLS, a DRW, and a word that is neither. -/
theorem witness_redraw_cls : (atWord 0x200 0x00E0#16).needsRedraw = false ∧
    (afterOf (step (atWord 0x200 0x00E0#16))).map needsRedrawOut = some true := by decide
theorem witness_redraw_other : (afterOf (step (atWord 0x200 0x6001#16))).map needsRedrawOut = some false := by decide
/-- FetchReadsABigEndianWord and StepRunsTheDecodedInstruction, at the last legal `pc`. -/
theorem witness_fetch : let s := atWord 0xFFE 0x1ABC#16
    s.pc.toNat + 1 ≤ 0xFFF ∧ s.fault = none ∧ s.memRead s.pc.toNat = some 0x1A#8 ∧
      s.memRead (s.pc.toNat + 1) = some 0xBC#8 ∧ decodeBytes [0x1A#8, 0xBC#8] = .ok (.jpAddr 0xABC#12, []) ∧
      (Instr.jpAddr 0xABC#12).wellFormed = true := by decide
/-- FetchOutOfBoundsHaltsTheCore: each side of the bound, and the last legal fetch. -/
theorem witness_fetch_bounds : let s (pc : Word) := { State.reset with pc := pc }
    0xFFF < (s 0xFFF#16).pc.toNat + 1 ∧ (s 0xFFE#16).pc.toNat + 1 ≤ 0xFFF ∧ (s 0xFFE#16).pc = 0xFFE#16 ∧
      (s 0xFFF#16).fault = none := by decide
/-- HaltedCoreIgnoresSteps. -/
theorem witness_halted : ({ State.reset with fault := some .spriteBounds }).fault = some .spriteBounds := by decide
/-- HaltedCoreIgnoresSteps, the ports and inputs that are accepted at a halted core: the first and last address of a load. -/
theorem witness_halted_ports : let s := { State.reset with fault := some .fetchBounds }
    (loadPort 0x200 0x01#8 s).isSome = true ∧ (loadPort 0xFFF 0x01#8 s).isSome = true ∧ loadPort 0x1FF 0x01#8 s = none ∧
      (Session.accept ⟨s, true⟩ .step).isSome = true ∧ (Session.accept ⟨s, true⟩ .redrawAck).isSome = true ∧
      (Session.accept ⟨s, false⟩ (.load 0x200 0x01#8)).isSome = true := by decide
/-- FaultsArePrecise: each cause. -/
theorem witness_precise_fetch : (afterOf (step { State.reset with pc := 0xFFF#16 })).map (fun t => t.fault) =
    some (some .fetchBounds) := by decide
theorem witness_precise_sprite : (afterOf (step { atWord 0x200 0xD00F#16 with I := 0xFF2#16 })).map (fun t => t.fault) =
    some (some .spriteBounds) := by decide
/-- StepInBoundsRaisesNoFault and NormalEndIsStable. -/
theorem witness_normal_end : NormalEnd (atWord 0x20A 0x120A#16) := by
  refine ⟨?_, ?_, ?_⟩ <;> decide
/-- WithFetchWordRunsTheWord, also from a halted state with `pc` out of bounds. -/
theorem witness_withFetchWord : Memory.wf State.reset.memory = true ∧
    regAfter (State.withFetchWord { State.reset with pc := 0x1000#16, fault := some .fetchBounds } 16 0x6A2B) 0xA#4 =
      some 0x2B#8 := by decide
/-- DecodeFollowsTheOpcodeMap: one word for each clause. -/
theorem witness_decode : (0x0FEF#16 : Word).toNat / 4096 = 0x0 ∧ (0x0FEF#16 : Word).toNat / 16 % 16 = 0xE ∧
    (0x00F0#16 : Word).toNat / 16 % 16 ≠ 0xE ∧ (0x1FFF#16 : Word).toNat / 4096 = 0x1 ∧
    (0x6A2B#16 : Word).toNat / 4096 = 0x6 ∧ (0x7F01#16 : Word).toNat / 4096 = 0x7 ∧
    (0xA20C#16 : Word).toNat / 4096 = 0xA ∧ (0xDFFF#16 : Word).toNat / 4096 = 0xD ∧
    (0xFFFF#16 : Word).toNat / 4096 ∈ [0x2, 0x3, 0x4, 0x5, 0x8, 0x9, 0xB, 0xC, 0xE, 0xF] := by decide
/-- JpSetsThePc: the last clause's jump to 0xFFF. -/
theorem witness_jp_top : State.reset.fault = none ∧
    (afterOf (exec (.jpAddr 0xFFF#12) State.reset)).map (fun t => t.pc) = some 0x0FFF#16 := by decide
/-- AssembledItemsDecode: each side of each range, a label that is defined, one out of range and one that is not defined. -/
theorem witness_items_numbers : (AsmItem.bytes [] (.jp (.number 4095))).isSome = true ∧ AsmItem.bytes [] (.jp (.number 4096)) = none ∧
    (AsmItem.bytes [] (.ldI (.number 4095))).isSome = true ∧ AsmItem.bytes [] (.ldI (.number 4096)) = none ∧
    (AsmItem.bytes [] (.ldV 15 255)).isSome = true ∧ AsmItem.bytes [] (.ldV 16 255) = none ∧ AsmItem.bytes [] (.ldV 15 256) = none ∧
    (AsmItem.bytes [] (.addV 15 255)).isSome = true ∧ AsmItem.bytes [] (.addV 16 255) = none ∧ AsmItem.bytes [] (.addV 15 256) = none ∧
    (AsmItem.bytes [] (.drw 15 15 15)).isSome = true ∧ AsmItem.bytes [] (.drw 15 16 15) = none ∧
    AsmItem.bytes [] (.drw 15 15 16) = none := by decide
theorem witness_items_data : AsmItem.bytes [] (.dw 65535) = some [0xFF#8, 0xFF#8] ∧ AsmItem.bytes [] (.dw 65536) = none ∧
    AsmItem.bytes [] (.db [0, 255]) = some [0x00#8, 0xFF#8] ∧ AsmItem.bytes [] (.db [0, 256]) = none := by decide
theorem witness_items_labels : [("a", 0xFFF), ("b", 0x1000)].lookup "a" = some 0xFFF ∧
    [("a", 0xFFF), ("b", 0x1000)].lookup "c" = none ∧
    AsmItem.bytes [("a", 0xFFF), ("b", 0x1000)] (.ldI (.label "a")) = some [0xAF#8, 0xFF#8] ∧
    AsmItem.bytes [("a", 0xFFF), ("b", 0x1000)] (.ldI (.label "b")) = none ∧
    AsmItem.bytes [("a", 0xFFF), ("b", 0x1000)] (.jp (.label "c")) = none := by decide
/-- LabelsNameTheNextByte: a label before, and one after, every byte. -/
theorem witness_labels : assemble ([] ++ .label "a" :: [.jp (.label "b"), .label "b"]) = some [0x12#8, 0x02#8] ∧
    assemble ([.label "a", .jp (.label "b")] ++ .label "b" :: []) = some [0x12#8, 0x02#8] := by decide
/-- DisassemblyAssemblesBack: an instruction that is no CLS, and a CLS whose text does not give its word back. -/
theorem witness_disassembly : (∀ n2 n4, Instr.drwVxVyN 0x0#4 0xA#4 0x3#4 ≠ .cls n2 n4) ∧
    disassemble (.cls 0xA#4 0x5#4) = "CLS ; 0x0AE5" := by
  refine ⟨?_, by decide⟩
  simp
/-- UnrecognizedWordIsSkipped, at the last legal `pc`. -/
theorem witness_unrecognized : let s := atWord 0xFFE 0xF015#16
    s.fault = none ∧ s.pc.toNat + 1 ≤ 0xFFF ∧ (instructionRows.all fun r => !r.selects (fetchedWord s)) = true := by decide
/-- EveryUnrecognizedRowCompletes is about every state; its lists have 15 and 10 members. -/
theorem witness_rows : category0Rows.length = 15 ∧ categoryRows.length = 10 := by decide
/-- DrwDrawsTheSprite, DrwAlwaysSetsRedraw: the sprite ends on the last byte, or has height 0 with `I` anywhere. -/
theorem witness_draw_bounds : let s := { State.reset with I := 0xFF1#16 }
    s.I.toNat + (0xF#4 : Nibble).toNat - 1 ≤ 0xFFF ∧ (0x0#4 : Nibble).toNat = 0 ∧
      (∀ j < (0xF#4 : Nibble).toNat, s.memory.byteAt (s.I.toNat + j) = 0x00#8) := by decide
/-- DrwCoordinatesWrap: column 255 and column 63, row 32 and row 0. -/
theorem witness_draw_wraps : let s := (State.reset.writeV 0x0#4 255#8).writeV 0x1#4 32#8
    let u := (State.reset.writeV 0x0#4 63#8).writeV 0x1#4 0#8
    s.memory = u.memory ∧ s.I = u.I ∧ s.display = u.display ∧
      (s.readV 0x0#4).toNat % 64 = (u.readV 0x0#4).toNat % 64 ∧ (s.readV 0x1#4).toNat % 32 = (u.readV 0x1#4).toNat % 32 ∧
      (afterOf (exec (.drwVxVyN 0x0#4 0x1#4 0x1#4) s)).isSome = true ∧
      (afterOf (exec (.drwVxVyN 0x0#4 0x1#4 0x1#4) u)).isSome = true := by decide
/-- DrwOutOfBoundsRaisesSpriteBounds, one byte too far; its step clause. -/
theorem witness_draw_out : let s := { atWord 0x200 0xD01F#16 with I := 0xFF2#16 }
    1 ≤ (0xF#4 : Nibble).toNat ∧ 0xFFF < s.I.toNat + (0xF#4 : Nibble).toNat - 1 ∧ s.fault = none ∧
      s.pc.toNat + 1 ≤ 0xFFF ∧ decode (fetchedWord s) = .drwVxVyN 0x0#4 0x1#4 0xF#4 := by decide
/-- DrwFrame: both forms, and the faulting one changes the latch. -/
theorem witness_draw_frame : (afterOf (exec (.drwVxVyN 0x0#4 0x1#4 0x1#4) State.reset)).map faultOut = some 0#2 ∧
    (afterOf (exec (.drwVxVyN 0x0#4 0x1#4 0x1#4) { State.reset with I := 0x1000#16 })).map faultOut = some 2#2 := by decide
/-- DrawingTwiceErases. -/
theorem witness_draw_twice : (0x0#4 : Nibble) ≠ 0xF#4 ∧ (0x1#4 : Nibble) ≠ 0xF#4 ∧
    State.reset.I.toNat + (0x1#4 : Nibble).toNat - 1 ≤ 0xFFF := by decide
/-- PixelIsTheRowBit: a row with column 0 lit and one with column 63 lit. -/
theorem witness_pixel : ({ State.reset with display := State.reset.display.set 0 0x8000000000000000#64 }).display[0] =
      0x8000000000000000#64 ∧
    ({ State.reset with display := State.reset.display.set 0 0x0000000000000001#64 }).display[0] = 0x0000000000000001#64 := by
  decide
/-- PcAfterAStep: a jump, a word that is no jump, and a fetch out of bounds. -/
theorem witness_pc : pcAfter (atWord 0x200 0x1ABC#16) = some 0xABC#16 ∧ pcAfter (atWord 0x200 0x6001#16) = some 0x202#16 ∧
    pcAfter { State.reset with pc := 0xFFF#16 } = some 0xFFF#16 := by decide
/-- PcPathIsFixedByMemory and RunsNeverChangeMemory: two different states that run two steps. -/
theorem witness_runs : let u := State.reset.writeV 0x5#4 0x01#8
    State.reset.pc = u.pc ∧ State.reset.memory = u.memory ∧ State.reset ≠ u ∧
      (afterOf (core.run 2 State.reset)).isSome = true ∧ (afterOf (core.run 2 u)).isSome = true := by decide
/-- EveryInstructionLeavesMemoryAndTimers: an instruction that is neither CLS nor DRW answers a next state. -/
theorem witness_exec : (afterOf (exec (.ldIAddr 0x123#12) State.reset)).isSome = true ∧
    (∀ n2 n4, Instr.ldIAddr 0x123#12 ≠ .cls n2 n4) ∧ (∀ x y n, Instr.ldIAddr 0x123#12 ≠ .drwVxVyN x y n) := by
  refine ⟨by decide, ?_, ?_⟩ <;> simp
/-- StepKeepsTheRunInvariant, at the boundary of `pc`: a fetch at 0xFFE leaves 0x1000. -/
theorem witness_run_invariant : RunInv (atWord 0xFFE 0x0000#16) := by
  refine ⟨?_, ?_, ?_, ?_, ?_⟩ <;> decide
/-- ReachableSessionsMeetTheInvariant: a session after a load, a step and an acknowledge. -/
theorem witness_reachable : ∃ h : Session, h.Reachable ∧ h.started = true :=
  ⟨_, ⟨[.load 0x201 0xE0#8, .step, .redrawAck], rfl⟩, rfl⟩
/-- HostActionsKeepTheSessionInvariant: the session a reset leaves meets the invariant and accepts each action. -/
theorem witness_session_invariant : SessionInv Session.start :=
  ⟨by refine ⟨?_, ?_, ?_, ?_, ?_⟩ <;> decide, fun _ => rfl⟩
theorem witness_session_actions : (Session.start.accept (.load 0xFFF 0x01#8)).isSome = true ∧
    (Session.start.accept .step).isSome = true ∧ (Session.start.accept .redrawAck).isSome = true ∧
    (Session.start.accept .reset).isSome = true := by decide
/-- MemoryIsFixedAfterTheFirstStep. -/
theorem witness_started : (Session.mk State.reset true).started = true ∧ HostInput.reset ∉ [HostInput.step, .redrawAck] ∧
    (Session.run (Session.mk State.reset true) [.step, .redrawAck]).isSome = true := by decide
/-- CanonicalMemoriesAreDeterminedByReads. -/
theorem witness_canonical : Memory.wf [(0x200, 0x12#8), (0xFFF, 0x01#8)] = true ∧ Memory.wf [(0x1000, 0x01#8)] = false ∧
    Memory.wf [(0x200, 0x00#8)] = false := by decide

end Sys2Proof.Machine
end

section
/-! The statements of 00_scope.md: what a step answers (R15) and the diagnostic event it emits (R14). -/

namespace Sys2Proof

/-! ### The word of a decoded instruction: decoding loses no bit of the word (30_encoding.md R82, R85, R87) -/

theorem formatXYN_of_fields {w : Word} {op y : Nibble} (hop : fieldOP w = op) (hy : fieldY w = y) :
    formatXYN op (fieldX w) y (fieldN w) = w := by
  rw [← hop, ← hy, formatXYN_fields]

theorem formatXB_of_fieldOP {w : Word} {op : Nibble} (hop : fieldOP w = op) :
    formatXB op (fieldX w) (fieldKK w) = w := by
  rw [← hop, formatXB_fields]

theorem formatA_of_fieldOP {w : Word} {op : Nibble} (hop : fieldOP w = op) : formatA op (fieldNNN w) = w := by
  rw [← hop, formatA_fields]

theorem encode_decodeCategory0 {w : Word} (hop : fieldOP w = 0x0#4) : encode (decodeCategory0 w) = w := by
  rcases nibble_cases (fieldY w) with h | h | h | h | h | h | h | h | h | h | h | h | h | h | h | h <;>
    simpa [decodeCategory0, h, encode] using formatXYN_of_fields hop h

/-- Re-encoding a decoded word gives the word back, so the diagnostic event can name it. -/
@[simp] theorem encode_decode (w : Word) : encode (decode w) = w := by
  rcases nibble_cases (fieldOP w) with h | h | h | h | h | h | h | h | h | h | h | h | h | h | h | h
  case inl => simpa [decode, h] using encode_decodeCategory0 h
  all_goals simp [decode, h, encode, formatXB_of_fieldOP h, formatA_of_fieldOP h, formatXYN_of_fields h rfl]

end Sys2Proof

namespace Sys2Proof.Machine

variable {s t : State} {c : FaultCause}

/-! ### Reading the two bytes of a fetch (20_memory.md R50, R52) -/

theorem State.memRead_eq_some {a : Nat} {b : Byte} : s.memRead a = some b ↔ a ≤ 0xFFF ∧ s.memory.byteAt a = b := by
  simp [State.memRead, validAddress]

theorem fetchedWord_of_memRead {hi lo : Byte} (hhi : s.memRead s.pc.toNat = some hi)
    (hlo : s.memRead (s.pc.toNat + 1) = some lo) : fetchedWord s = wordOfBytes hi lo := by
  rw [fetchedWord, (State.memRead_eq_some.1 hhi).2, (State.memRead_eq_some.1 hlo).2]

theorem decode_of_decodeBytes {hi lo : Byte} {i : Instr} (h : decodeBytes [hi, lo] = .ok (i, [])) :
    decode (wordOfBytes hi lo) = i := by
  cases h
  rfl

/-- Settles O7: the bytes read at `pc` bound `pc` by 0xFFE and are the fetched word, so the step is its execute phase. -/
theorem stepRunsTheDecodedInstruction : Obligations.StepRunsTheDecodedInstruction := by
  intro s hi lo i hrun hhi hlo hdec _
  have hpc : s.pc.toNat ≤ 0xFFE := by
    have := (State.memRead_eq_some.1 hlo).1
    omega
  rw [step_running hrun hpc, fetchedWord_of_memRead hhi hlo, decode_of_decodeBytes hdec]
  rfl

/-! ### What a step answers (R15) -/

theorem step_running_total (hrun : s.fault = none) : ∃ t, step s = .next t := by
  rcases Nat.lt_or_ge 0xFFE s.pc.toNat with hpc | hpc
  · exact ⟨_, step_fetchBounds hrun hpc⟩
  · obtain ⟨t, ht, -⟩ := exec_effect (decode (fetchedWord s)) (s.setPc (s.pc + 2#16))
    exact ⟨t, (step_running hrun hpc).trans ht⟩

theorem step_next_iff_running : (∃ t, step s = .next t) ↔ s.fault = none :=
  ⟨fun ⟨_, h⟩ => (step_next h).1, step_running_total⟩

theorem step_ne_refused (r : Refusal) : step s ≠ .refused r := by
  cases hf : s.fault with
  | some c => simp [step_halted hf]
  | none =>
    obtain ⟨t, ht⟩ := step_running_total hf
    simp [ht]

theorem stepResult_halted (hf : s.fault = some c) : stepResult s = none := by
  simp [stepResult, step_halted hf]

theorem stepResult_completed (h : step s = .next t) (hf : t.fault = none) : stepResult s = some (.next t) := by
  simp [stepResult, h, hf]

theorem stepResult_raised (h : step s = .next t) (hf : t.fault = some c) : stepResult s = some (.fault c t) := by
  simp [stepResult, h, hf]

/-- The three forms of a step in R15: none at a halted core, `Next`, `Fault`. -/
theorem stepResult_cases (s : State) :
    (s.fault ≠ none ∧ stepResult s = none) ∨
    (s.fault = none ∧ ∃ t, step s = .next t ∧ t.fault = none ∧ stepResult s = some (.next t)) ∨
    (s.fault = none ∧ ∃ c t, step s = .next t ∧ t.fault = some c ∧ stepResult s = some (.fault c t)) := by
  cases hf : s.fault with
  | some c => exact .inl ⟨by simp, stepResult_halted hf⟩
  | none =>
    obtain ⟨t, ht⟩ := step_running_total hf
    cases hft : t.fault with
    | none => exact .inr (.inl ⟨rfl, t, ht, hft, stepResult_completed ht hft⟩)
    | some c => exact .inr (.inr ⟨rfl, c, t, ht, hft, stepResult_raised ht hft⟩)

theorem stepResult_eq_none_iff : stepResult s = none ↔ s.fault ≠ none := by
  obtain ⟨hf, hr⟩ | ⟨hf, t, -, -, hr⟩ | ⟨hf, c, t, -, -, hr⟩ := stepResult_cases s <;> simp [hf, hr]

theorem stepResult_eq_next_iff : stepResult s = some (.next t) ↔ step s = .next t ∧ t.fault = none := by
  refine ⟨fun h => ?_, fun ⟨ht, hft⟩ => stepResult_completed ht hft⟩
  obtain ⟨-, hr⟩ | ⟨-, u, hu, hfu, hr⟩ | ⟨-, c, u, -, -, hr⟩ := stepResult_cases s <;> rw [hr] at h <;> cases h
  exact ⟨hu, hfu⟩

theorem stepResult_eq_fault_iff : stepResult s = some (.fault c t) ↔ step s = .next t ∧ t.fault = some c := by
  refine ⟨fun h => ?_, fun ⟨ht, hft⟩ => stepResult_raised ht hft⟩
  obtain ⟨-, hr⟩ | ⟨-, u, -, -, hr⟩ | ⟨-, c, u, hu, hfu, hr⟩ := stepResult_cases s <;> rw [hr] at h <;> cases h
  exact ⟨hu, hfu⟩

/-- Settles O10: `exec` answers a next state for every instruction, so a step stops only at a set latch. -/
theorem runningCoreAlwaysHasAStep : Obligations.RunningCoreAlwaysHasAStep := fun _ =>
  ⟨step_next_iff_running, step_ne_refused, stepResult_eq_none_iff, fun _ => stepResult_eq_next_iff,
    fun _ _ => stepResult_eq_fault_iff⟩

/-! ### The diagnostic event (R14) -/

theorem diagOut_halted (hf : s.fault = some c) : diagOut s = none := by
  simp [diagOut, hf]

theorem diagOut_fetchBounds (h : 0xFFF ≤ s.pc.toNat) : diagOut s = none := by
  cases hf : s.fault <;> simp [diagOut, hf, fetch_illegal h]

/-- The event names the fetched word, since `encode` undoes `decode`, and its address, since `pc` has advanced by 2. -/
theorem diagOut_running (hrun : s.fault = none) (h : s.pc.toNat ≤ 0xFFE) :
    diagOut s = if (decode (fetchedWord s)).isUnrecognized then some ⟨fetchedWord s, s.pc⟩ else none := by
  simp [diagOut, hrun, fetch_legal h, emitted]

/-- Settles O13, by the three ways a step can go: halted, fetch out of bounds, word executed. -/
theorem diagnosticEventMarksUnrecognizedWords : Obligations.DiagnosticEventMarksUnrecognizedWords := by
  intro s e
  cases hf : s.fault with
  | some c => simp [diagOut_halted hf]
  | none =>
    rcases Nat.lt_or_ge 0xFFE s.pc.toNat with hpc | hpc
    · simp [diagOut_fetchBounds hpc, show ¬ s.pc.toNat + 1 ≤ 0xFFF by omega]
    · simp [diagOut_running hf hpc, show s.pc.toNat + 1 ≤ 0xFFF by omega, eq_comm (a := e)]

end Sys2Proof.Machine
end

section
/-! The statements of 10_state.md: how every step leaves `pc` (R25) and the invariants of a reachable state (R43), over steps
and over the host protocol; and the pixel mapping of `display` (R33). -/

namespace Sys2Proof.Machine

variable {s t : State} {i : Instr}

/-! ### What an effect of an instruction leaves in each register of R43 -/

@[simp] theorem addressOperand_toNat (nnn : Addr12) : (addressOperand nnn).toNat = nnn.toNat := by
  have := nnn.isLt
  simp only [addressOperand, BitVec.truncate_eq_setWidth, BitVec.toNat_setWidth]
  omega

/-- No instruction stores (R58 of 20_memory.md). -/
theorem Effect.memory_eq (h : Effect s i t) : t.memory = s.memory := by
  cases h <;> rfl

theorem Effect.DT_eq (h : Effect s i t) : t.DT = s.DT := by
  cases h <;> rfl

theorem Effect.ST_eq (h : Effect s i t) : t.ST = s.ST := by
  cases h <;> rfl

/-- `LD I, addr` alone writes `I`, with an address operand (R28). -/
theorem Effect.I_eq (h : Effect s i t) : t.I = s.I ∨ ∃ nnn, t.I = addressOperand nnn := by
  cases h
  case ldIAddr nnn => exact .inr ⟨nnn, rfl⟩
  all_goals exact .inl rfl

theorem Effect.pc_of_jpAddr {nnn : Addr12} (h : Effect s (.jpAddr nnn) t) : t.pc = addressOperand nnn := by
  cases h with
  | jpAddr => rfl
  | skipped _ hi => cases hi

theorem Effect.pc_of_ne_jpAddr (h : Effect s i t) (hi : ∀ nnn, i ≠ .jpAddr nnn) : t.pc = s.pc := by
  cases h
  case jpAddr nnn => exact absurd rfl (hi nnn)
  all_goals rfl

/-! ### What a step leaves in each register of R43 -/

theorem step_memory (h : step s = .next t) : t.memory = s.memory := by
  obtain ⟨-, ⟨-, rfl⟩ | ⟨-, he⟩⟩ := step_next h
  · rfl
  · exact he.memory_eq

theorem step_DT (h : step s = .next t) : t.DT = s.DT := by
  obtain ⟨-, ⟨-, rfl⟩ | ⟨-, he⟩⟩ := step_next h
  · rfl
  · exact he.DT_eq

theorem step_ST (h : step s = .next t) : t.ST = s.ST := by
  obtain ⟨-, ⟨-, rfl⟩ | ⟨-, he⟩⟩ := step_next h
  · rfl
  · exact he.ST_eq

theorem step_I (h : step s = .next t) : t.I = s.I ∨ ∃ nnn, t.I = addressOperand nnn := by
  obtain ⟨-, ⟨-, rfl⟩ | ⟨-, he⟩⟩ := step_next h
  · exact .inl rfl
  · exact he.I_eq

/-- The three ways a step leaves `pc` (R25): a faulting fetch keeps it, a jump sets its target, every other word adds 2. -/
theorem step_pc_cases (h : step s = .next t) :
    (0xFFF ≤ s.pc.toNat ∧ t.pc = s.pc) ∨
    (s.pc.toNat ≤ 0xFFE ∧ ∃ nnn, decode (fetchedWord s) = .jpAddr nnn ∧ t.pc.toNat = nnn.toNat) ∨
    (s.pc.toNat ≤ 0xFFE ∧ (∀ nnn, decode (fetchedWord s) ≠ .jpAddr nnn) ∧ t.pc.toNat = s.pc.toNat + 2) := by
  obtain ⟨-, ⟨hpc, rfl⟩ | ⟨hpc, he⟩⟩ := step_next h
  · exact .inl ⟨hpc, rfl⟩
  · by_cases hj : ∃ nnn, decode (fetchedWord s) = .jpAddr nnn
    · obtain ⟨nnn, hj⟩ := hj
      rw [hj] at he
      exact .inr (.inl ⟨hpc, nnn, hj, by rw [he.pc_of_jpAddr, addressOperand_toNat]⟩)
    · have hne : ∀ nnn, decode (fetchedWord s) ≠ .jpAddr nnn := fun nnn hd => hj ⟨nnn, hd⟩
      exact .inr (.inr ⟨hpc, hne, by rw [he.pc_of_ne_jpAddr hne, State.setPc_pc, pc_advance_toNat hpc]⟩)

/-- Settles O37, by the three ways a step leaves `pc`. -/
theorem pcAfterAStep : Obligations.PcAfterAStep := by
  intro s t h
  obtain ⟨hpc, hkeep⟩ | ⟨hpc, nnn, hj, ht⟩ | ⟨hpc, hne, ht⟩ := step_pc_cases h
  · exact ⟨fun _ => hkeep, fun hlegal => by omega⟩
  · refine ⟨fun hout => by omega, fun _ => ⟨fun nnn' hj' => ?_, fun hne => absurd hj (hne nnn)⟩⟩
    cases hj.symm.trans hj'
    exact ht
  · exact ⟨fun hout => by omega, fun _ => ⟨fun nnn hj => absurd hj (hne nnn), fun _ => ht⟩⟩

/-! ### The run invariant (R43) -/

/-- Settles O42: every reset value is within its bound, and the empty memory is canonical. -/
theorem resetMeetsTheRunInvariant : Obligations.ResetMeetsTheRunInvariant where
  pcBound := by decide
  indexBound := by decide
  delayZero := rfl
  soundZero := rfl
  memoryWf := rfl

/-- R27: a jump target is below 0x1000, and 2 is only ever added to a `pc` of at most 0xFFE. -/
theorem step_pc_le (h : step s = .next t) (hs : s.pc.toNat ≤ 0x1000) : t.pc.toNat ≤ 0x1000 := by
  obtain ⟨-, hkeep⟩ | ⟨-, nnn, -, ht⟩ | ⟨hpc, -, ht⟩ := step_pc_cases h
  · rwa [hkeep]
  · have := nnn.isLt
    omega
  · omega

/-- R29: the one write of `I` is a 12-bit value. -/
theorem step_I_le (h : step s = .next t) (hs : s.I.toNat ≤ 0xFFF) : t.I.toNat ≤ 0xFFF := by
  obtain hkeep | ⟨nnn, hw⟩ := step_I h
  · rwa [hkeep]
  · rw [hw, addressOperand_toNat]
    exact Nat.le_of_lt_succ nnn.isLt

/-- Settles O43: a step bounds `pc` and `I`, and leaves the timers and memory as they are. -/
theorem stepKeepsTheRunInvariant : Obligations.StepKeepsTheRunInvariant := fun _ _ hs h =>
  { pcBound := step_pc_le h hs.pcBound
    indexBound := step_I_le h hs.indexBound
    delayZero := (step_DT h).trans hs.delayZero
    soundZero := (step_ST h).trans hs.soundZero
    memoryWf := (congrArg Memory.wf (step_memory h)).trans hs.memoryWf }

/-! ### The input ports (R37) and the run invariant -/

theorem stepPort_memory (s : State) : (stepPort s).memory = s.memory := by
  obtain hstay | hstep := stepPort_cases s
  · rw [hstay]
  · exact step_memory hstep

theorem RunInv.stepPort (hs : RunInv s) : RunInv (stepPort s) := by
  obtain hstay | hstep := stepPort_cases s
  · rwa [hstay]
  · exact stepKeepsTheRunInvariant s _ hs hstep

/-- A state that differs in memory alone, canonical again, still meets the invariant. -/
theorem RunInv.setMemory (hs : RunInv s) {m : Memory} (hm : m.wf = true) : RunInv (s.setMemory m) :=
  { hs with memoryWf := hm }

theorem RunInv.redrawAck (hs : RunInv s) : RunInv (redrawAck s) :=
  { hs with }

/-! ### The host protocol (60_exceptions.md R180) -/

/-- What a session can answer: each host action with its guard and the session it leaves. -/
inductive Session.Accepts (h : Session) : HostInput → Session → Prop
  | reset : h.Accepts .reset Session.start
  | load (a : Nat) (b : Byte) (s : State) (hwaiting : h.started = false) (hload : loadPort a b h.core = some s) :
      h.Accepts (.load a b) ⟨s, false⟩
  | step (hclear : h.core.needsRedraw = false) : h.Accepts .step ⟨stepPort h.core, true⟩
  | redrawAck : h.Accepts .redrawAck ⟨redrawAck h.core, h.started⟩

theorem Session.accept_some {h h' : Session} {a : HostInput} (hacc : h.accept a = some h') : h.Accepts a h' := by
  cases a <;> simp only [Session.accept] at hacc
  case reset =>
    cases hacc
    exact .reset
  case load a b =>
    cases hstarted : h.started with
    | true => simp [hstarted] at hacc
    | false =>
      cases hload : loadPort a b h.core with
      | none => simp [hstarted, hload] at hacc
      | some s =>
        simp only [hstarted, hload, Bool.false_eq_true, if_false, Option.some.injEq] at hacc
        exact hacc ▸ .load a b s hstarted hload
  case step =>
    cases hclear : h.core.needsRedraw with
    | true => simp [hclear] at hacc
    | false =>
      simp only [hclear, Bool.false_eq_true, if_false, Option.some.injEq] at hacc
      exact hacc ▸ .step hclear
  case redrawAck =>
    cases hacc
    exact .redrawAck

theorem Session.run_cons_some {h h' : Session} {a : HostInput} {as : List HostInput} :
    Session.run h (a :: as) = some h' ↔ ∃ u, h.accept a = some u ∧ Session.run u as = some h' := by
  simp only [Session.run]
  cases h.accept a <;> simp

/-- What every action of a sequence keeps, the sequence keeps. -/
theorem Session.run_keeps {P : Session → Prop} {inputs : List HostInput}
    (hkeep : ∀ a ∈ inputs, ∀ h h' : Session, P h → h.accept a = some h' → P h') {h h' : Session}
    (hP : P h) (hrun : Session.run h inputs = some h') : P h' := by
  induction inputs generalizing h with
  | nil =>
    cases hrun
    exact hP
  | cons a as ih =>
    obtain ⟨u, hu, hrest⟩ := Session.run_cons_some.1 hrun
    exact ih (fun b hb => hkeep b (List.mem_cons_of_mem a hb)) (hkeep a List.mem_cons_self h u hP hu) hrest

/-! ### The session invariant -/

theorem sessionInv_start : SessionInv Session.start where
  coreInv := resetMeetsTheRunInvariant
  loading _ := rfl

/-- Settles O47: the ports keep the core's invariant; before the first step a load changes memory alone, and an acknowledge
clears a flag that is already clear. -/
theorem hostActionsKeepTheSessionInvariant : Obligations.HostActionsKeepTheSessionInvariant := by
  intro h h' input hinv hacc
  cases Session.accept_some hacc with
  | reset => exact sessionInv_start
  | load a b s hwaiting hload =>
    have hwf := loadPort_wf hinv.coreInv.memoryWf hload
    obtain ⟨-, -, rfl⟩ := loadPort_some hload
    exact
      { coreInv := hinv.coreInv.setMemory hwf
        loading := fun _ => (congrArg (State.setMemory · (h.core.memory.write a b)) (hinv.loading hwaiting)).trans rfl }
  | step => exact { coreInv := hinv.coreInv.stepPort, loading := nofun }
  | redrawAck =>
    exact
      { coreInv := hinv.coreInv.redrawAck
        loading := fun hwaiting => congrArg Machine.redrawAck (hinv.loading hwaiting) }

/-- Settles O44: the session a reset leaves meets the session invariant and every host action keeps it. -/
theorem reachableSessionsMeetTheInvariant : Obligations.ReachableSessionsMeetTheInvariant := by
  intro h ⟨inputs, hrun⟩
  have hinv : SessionInv h := Session.run_keeps
    (fun a _ h h' => hostActionsKeepTheSessionInvariant h h' a) sessionInv_start hrun
  exact ⟨hinv.coreInv, hinv.loading⟩

/-! ### Memory after the first step (D16) -/

/-- The first step has been issued, and memory is `m`. -/
def Session.StartedWith (m : Memory) (h : Session) : Prop := h.started = true ∧ h.core.memory = m

/-- Once started, a session accepts no load, and neither a step nor an acknowledge writes memory. -/
theorem Session.StartedWith.accept {m : Memory} {h h' : Session} {a : HostInput} (hm : h.StartedWith m)
    (ha : a ≠ .reset) (hacc : h.accept a = some h') : h'.StartedWith m := by
  obtain ⟨hstarted, hmem⟩ := hm
  cases Session.accept_some hacc with
  | reset => exact absurd rfl ha
  | load a b s hwaiting => exact absurd (hstarted.symm.trans hwaiting) (by decide)
  | step => exact ⟨rfl, (stepPort_memory h.core).trans hmem⟩
  | redrawAck => exact ⟨hstarted, hmem⟩

/-- Settles O45: every input but reset keeps the session started with the memory it has. -/
theorem memoryIsFixedAfterTheFirstStep : Obligations.MemoryIsFixedAfterTheFirstStep := by
  intro inputs h h' hstarted hreset hrun
  obtain ⟨hstarted', hmem⟩ : h'.StartedWith h.core.memory := Session.run_keeps
    (fun a ha _ _ hm => hm.accept (ne_of_mem_of_not_mem ha hreset)) ⟨hstarted, rfl⟩ hrun
  exact ⟨hstarted', fun a => by rw [State.memRead, State.memRead, hmem]⟩

/-! ### Pixels (R33) -/

/-- A row word with the one bit of column `c` set lights column `c` alone. -/
theorem pixel_of_row_eq_twoPow {r : Fin 32} {c : Fin 64} (hrow : s.display[r.val] = BitVec.twoPow 64 (columnBit c))
    (c' : Fin 64) : s.pixel r c' = decide (c' = c) := by
  simp only [State.pixel, Display.pixel, hrow, BitVec.getLsbD_twoPow, columnBit_lt, columnBit_inj, decide_true,
    Bool.true_and, eq_comm]

/-- Settles O36: the mapping is the definition of `pixel`; the two row words are the bits of columns 0 and 63. -/
theorem pixelIsTheRowBit : Obligations.PixelIsTheRowBit :=
  ⟨fun _ _ _ => rfl, fun _ _ hrow => pixel_of_row_eq_twoPow (c := 0) hrow,
    fun _ _ hrow => pixel_of_row_eq_twoPow (c := 63) hrow⟩

end Sys2Proof.Machine
end

section
/-! The statements of 20_memory.md: the fetch (R52, R53), the word stored for the next fetch, the canonical form of `memory`,
and the frame of every instruction and of every run (R58). -/

namespace Sys2Proof

/-- Decoding the word of an instruction gives the instruction back: the fields of a format are its parts (30_encoding.md R82,
R85, R87). -/
@[simp] theorem decode_encode (i : Instr) : decode (encode i) = i := by
  cases i <;> simp [encode, decode, decodeCategory0]

end Sys2Proof

namespace Sys2Proof.Machine

variable {s t : State} {i : Instr} {w : Word}

/-! ### The fetch (R52, R53) -/

/-- Settles O6: the bytes read at `pc` are the fetched word, and a legal fetch advances `pc` without wrapping. -/
theorem fetchReadsABigEndianWord : Obligations.FetchReadsABigEndianWord := by
  intro s hi lo hbound hhi hlo
  have hpc : s.pc.toNat ≤ 0xFFE := by omega
  have hword : fetchedWord s = wordOfBytes hi lo := fetchedWord_of_memRead hhi hlo
  refine ⟨wordOfBytes hi lo, wordOfBytes_toNat hi lo, ?_, pc_advance_toNat hpc, fun hrun => ?_⟩
  · rw [fetch_legal hpc, hword]
    rfl
  · rw [step_running hrun hpc, hword]
    rfl

/-- Settles O8, by the two sides of the bound; at 0xFFE the fetch is legal and `pc + 2` is 0x1000. -/
theorem fetchOutOfBoundsHaltsTheCore : Obligations.FetchOutOfBoundsHaltsTheCore := by
  intro s hrun
  refine ⟨fun hout => ?_, fun hlegal => ?_, fun htop => ?_⟩
  · have hpc : 0xFFF ≤ s.pc.toNat := Nat.le_of_lt_succ hout
    exact ⟨step_fetchBounds hrun hpc, diagOut_fetchBounds hpc, rfl⟩
  · exact ⟨_, fetch_legal (Nat.le_of_succ_le_succ hlegal)⟩
  · have hnext : s.pc + 2#16 = 0x1000#16 := by rw [htop]; rfl
    refine ⟨fetchedWord s, ?_⟩
    rw [fetch_legal (by rw [htop]; decide), hnext]
    rfl

/-! ### The word stored for the next fetch (log entry 11) -/

/-- Making a state ready clears the latch and leaves a `pc` that a fetch can use, its own where that is one. -/
theorem fetchReady_spec (s : State) : ∃ pc : Word, fetchReady s = (s.setFault none).setPc pc ∧ pc.toNat ≤ 0xFFE ∧
    (s.pc.toNat ≤ 0xFFE → pc = s.pc) := by
  have hiff : fetchLegal (s.setFault none) = true ↔ s.pc.toNat ≤ 0xFFE :=
    decide_eq_true_iff.trans Nat.succ_le_succ_iff
  by_cases hpc : s.pc.toNat ≤ 0xFFE
  · exact ⟨s.pc, if_pos (hiff.2 hpc), hpc, fun _ => rfl⟩
  · exact ⟨0x200#16, if_neg (mt hiff.1 hpc), by decide, fun h => absurd h hpc⟩

/-- The two bytes stored at `pc` are the word the next fetch reads. -/
theorem fetchedWord_storeFetchWord (hm : s.memory.wf = true) (hpc : s.pc.toNat ≤ 0xFFE) :
    fetchedWord (storeFetchWord s w) = w := by
  have hfit : s.pc.toNat + [hiByte w, loByte w].length ≤ Config.memSize := Nat.add_le_add_right hpc 2
  simp [fetchedWord, storeFetchWord, Memory.byteAt_writeBytes hm hfit]

/-- From a running state with a legal `pc`, the step after the store executes the stored word. -/
theorem step_storeFetchWord (hm : s.memory.wf = true) (hrun : s.fault = none) (hpc : s.pc.toNat ≤ 0xFFE) :
    step (storeFetchWord s w) = exec (decode w) ((storeFetchWord s w).setPc (s.pc + 2#16)) := by
  rw [step_running (s := storeFetchWord s w) hrun hpc, fetchedWord_storeFetchWord hm hpc]
  rfl

/-- Every address but the two of the stored word reads as before. -/
theorem memRead_storeFetchWord_other (hm : s.memory.wf = true) (hpc : s.pc.toNat ≤ 0xFFE) {a : Nat}
    (hhi : a ≠ s.pc.toNat) (hlo : a ≠ s.pc.toNat + 1) : (storeFetchWord s w).memRead a = s.memRead a := by
  have hfit : s.pc.toNat + [hiByte w, loByte w].length ≤ Config.memSize := Nat.add_le_add_right hpc 2
  have hout : ¬ (s.pc.toNat ≤ a ∧ a < s.pc.toNat + [hiByte w, loByte w].length) := by
    simp only [List.length_cons, List.length_nil]
    omega
  simp only [State.memRead, storeFetchWord, State.setMemory_memory, Memory.byteAt_writeBytes hm hfit, if_neg hout]

/-- All 16 bits of a word are kept. -/
theorem withFetchWord_toNat (s : State) (w : Word) : s.withFetchWord 16 w.toNat = storeFetchWord (fetchReady s) w := by
  rw [State.withFetchWord, Nat.mod_eq_of_lt w.isLt, BitVec.ofNat_toNat, BitVec.setWidth_eq]

/-- Settles O14: the fetch reads the stored word, which decodes to the instruction; nothing but the latch, `pc` and the two
bytes has been written. -/
theorem withFetchWordRunsTheWord : Obligations.WithFetchWordRunsTheWord := by
  intro s i hm
  obtain ⟨pc, hready, hpc, hkeep⟩ := fetchReady_spec s
  rw [withFetchWord_toNat, hready]
  refine ⟨_, ?_, rfl, rfl, rfl, rfl, rfl, rfl, rfl, rfl, fun hlegal => ?_, fun a hhi hlo => ?_⟩
  · rw [step_storeFetchWord (s := (s.setFault none).setPc pc) hm rfl hpc, decode_encode]
    rfl
  · exact congrArg (· + 2#16) (hkeep (Nat.le_of_succ_le_succ hlegal))
  · have hadvance : (pc + 2#16).toNat = pc.toNat + 2 := pc_advance_toNat (s := s.setPc pc) hpc
    change a + 2 ≠ (pc + 2#16).toNat at hhi
    change a + 1 ≠ (pc + 2#16).toNat at hlo
    exact memRead_storeFetchWord_other (s := (s.setFault none).setPc pc) hm hpc
      (show a ≠ pc.toNat by omega) (show a ≠ pc.toNat + 1 by omega)

/-! ### Canonical memories (R50, log entry 8) -/

@[simp] theorem Memory.byteAt_head (k : Nat) (b : Byte) (m : Memory) : Memory.byteAt ((k, b) :: m) k = b := by
  simp [Memory.byteAt_cons]

/-- An address that reads a listed value is not below the first listed address. -/
theorem Memory.head_le_of_byteAt_ne {lo k a : Nat} {b : Byte} {m : Memory} (hm : Memory.wfFrom lo ((k, b) :: m) = true)
    (ha : Memory.byteAt ((k, b) :: m) a ≠ Memory.unlisted) : k ≤ a := by
  have hfrom : Memory.wfFrom k ((k, b) :: m) = true := Memory.wfFrom_cons.2 ⟨le_rfl, (Memory.wfFrom_cons.1 hm).2⟩
  exact Nat.le_of_not_lt fun hlt => ha (Memory.byteAt_below hlt hfrom)

/-- The tail of a canonical memory reads as the whole, but unlisted at the head's address. -/
theorem Memory.byteAt_tail {lo k : Nat} {b : Byte} {m : Memory} (hm : Memory.wfFrom lo ((k, b) :: m) = true) (a : Nat) :
    m.byteAt a = if k = a then Memory.unlisted else Memory.byteAt ((k, b) :: m) a := by
  obtain ⟨-, -, -, htail⟩ := Memory.wfFrom_cons.1 hm
  rw [Memory.byteAt_cons]
  split
  · exact Memory.byteAt_below (by omega) htail
  · rfl

/-- A canonical memory in which every address reads as unlisted has no entry. -/
theorem Memory.eq_nil_of_byteAt {lo : Nat} {m : Memory} (hm : Memory.wfFrom lo m = true)
    (h : ∀ a, m.byteAt a = Memory.unlisted) : m = [] := by
  cases m with
  | nil => rfl
  | cons c m =>
    obtain ⟨k, b⟩ := c
    obtain ⟨-, -, hb, -⟩ := Memory.wfFrom_cons.1 hm
    exact absurd ((Memory.byteAt_head k b m).symm.trans (h k)) hb

/-- By induction on both lists: equal reads give equal first addresses, equal first bytes, and tails with equal reads. -/
theorem Memory.eq_of_byteAt_eq {lo : Nat} {m m' : Memory} (hm : Memory.wfFrom lo m = true)
    (hm' : Memory.wfFrom lo m' = true) (h : ∀ a, m.byteAt a = m'.byteAt a) : m = m' := by
  induction m generalizing m' lo with
  | nil => exact (Memory.eq_nil_of_byteAt hm' fun a => (h a).symm).symm
  | cons c m ih =>
    cases m' with
    | nil => exact Memory.eq_nil_of_byteAt hm h
    | cons c' m' =>
      obtain ⟨k, b⟩ := c
      obtain ⟨k', b'⟩ := c'
      obtain ⟨-, -, hb, htail⟩ := Memory.wfFrom_cons.1 hm
      obtain ⟨-, -, hb', htail'⟩ := Memory.wfFrom_cons.1 hm'
      have hk : k = k' := le_antisymm
        (Memory.head_le_of_byteAt_ne hm (by rwa [h, Memory.byteAt_head]))
        (Memory.head_le_of_byteAt_ne hm' (by rwa [← h, Memory.byteAt_head]))
      subst hk
      have hbyte : b = b' := by simpa using h k
      have hrest : m = m' := ih htail htail' fun a => by rw [Memory.byteAt_tail hm, Memory.byteAt_tail hm', h]
      rw [hbyte, hrest]

/-- Settles O46, by induction on the two lists. -/
theorem canonicalMemoriesAreDeterminedByReads : Obligations.CanonicalMemoriesAreDeterminedByReads :=
  fun _ _ => Memory.eq_of_byteAt_eq

/-! ### The frame of every instruction and of every run (R58) -/

theorem State.memRead_congr (h : t.memory = s.memory) (a : Nat) : t.memRead a = s.memRead a := by
  rw [State.memRead, State.memRead, h]

/-- CLS and DRW alone write `display`, `needs_redraw` or the latch (10_state.md R34 to R36). -/
theorem Effect.output_eq (h : Effect s i t) (hcls : ∀ n2 n4, i ≠ .cls n2 n4) (hdrw : ∀ x y n, i ≠ .drwVxVyN x y n) :
    t.display = s.display ∧ t.needsRedraw = s.needsRedraw ∧ t.fault = s.fault := by
  cases h
  case cls n2 n4 => exact absurd rfl (hcls n2 n4)
  case drawn x y n _ _ _ => exact absurd rfl (hdrw x y n)
  case spriteBounds x y n _ => exact absurd rfl (hdrw x y n)
  all_goals exact ⟨rfl, rfl, rfl⟩

/-- Settles O39, by the effects an instruction can have. -/
theorem everyInstructionLeavesMemoryAndTimers : Obligations.EveryInstructionLeavesMemoryAndTimers := fun _ _ _ h =>
  have he := exec_next h
  ⟨State.memRead_congr he.memory_eq, he.DT_eq, he.ST_eq, he.output_eq⟩

/-- `t` has the memory and the timers of `s`. -/
def State.SameMemoryAndTimers (s t : State) : Prop := t.memory = s.memory ∧ t.DT = s.DT ∧ t.ST = s.ST

theorem State.SameMemoryAndTimers.step {u : State} (hsame : s.SameMemoryAndTimers t) (h : step t = .next u) :
    s.SameMemoryAndTimers u := by
  obtain ⟨hmem, hDT, hST⟩ := hsame
  exact ⟨(step_memory h).trans hmem, (step_DT h).trans hDT, (step_ST h).trans hST⟩

/-- Settles O40: no step changes memory or a timer, so no run does. -/
theorem runsNeverChangeMemory : Obligations.RunsNeverChangeMemory := fun _ s _ h =>
  run_keeps (P := s.SameMemoryAndTimers) (fun _ _ => State.SameMemoryAndTimers.step) ⟨rfl, rfl, rfl⟩ h

end Sys2Proof.Machine
end

section
/-! The statements of 30_encoding.md: decode and encode (R80 to R88), the assembler and the disassembly (R91 to R93). -/

namespace Sys2Proof

/-! ### Decode and encode are inverse (R80 to R85, R87) -/

@[simp] theorem isNibble_toNat (n : Nibble) : isNibble n.toNat = true := decide_eq_true n.isLt

@[simp] theorem isRegNumber_toNat (x : Nibble) : isRegNumber x.toNat = true := decide_eq_true x.isLt

@[simp] theorem isHeight_toNat (n : Nibble) : isHeight n.toNat = true := decide_eq_true n.isLt

@[simp] theorem isByte_toNat (b : Byte) : isByte b.toNat = true := decide_eq_true b.isLt

@[simp] theorem isAddress_toNat (nnn : Addr12) : isAddress nnn.toNat = true := decide_eq_true nnn.isLt

/-- A field of a width holds only what R83 allows (log entry 16). -/
theorem Instr.wellFormed_eq_true (i : Instr) : i.wellFormed = true := by
  cases i <;> simp [Instr.wellFormed]

theorem decodeBytes_encodeBytes (i : Instr) (rest : List Byte) : decodeBytes (encodeBytes i ++ rest) = .ok (i, rest) := by
  simp [encodeBytes, decodeBytes]

theorem decodeTableWord_toNat (w : Word) : decodeTableWord 16 w.toNat = some (decode w) := by
  have hword : BitVec.ofNat 16 (w.toNat % 2 ^ 16) = w := by
    rw [Nat.mod_eq_of_lt w.isLt, BitVec.ofNat_toNat, BitVec.setWidth_eq]
  rw [decodeTableWord, hword]
  simp [decodeBytes]

/-- Settles O17, from the two inverse laws `decode_encode` and `encode_decode`. -/
theorem decodeEncodeRoundTrip : Obligations.DecodeEncodeRoundTrip :=
  ⟨fun i => ⟨i.wellFormed_eq_true, decode_encode i⟩, encode_decode, decodeBytes_encodeBytes,
    fun i => by rw [decodeTableWord_toNat, decode_encode]⟩

/-! ### The fields of a word as arithmetic (00_scope.md R9) -/

variable (w : Word)

theorem fieldOP_toNat : (fieldOP w).toNat = w.toNat / 4096 := by
  have hw : w.toNat < 65536 := w.isLt
  simp only [fieldOP, BitVec.extractLsb'_toNat, Nat.shiftRight_eq_div_pow]
  omega

theorem fieldY_toNat : (fieldY w).toNat = w.toNat / 16 % 16 := by
  simp [fieldY, Nat.shiftRight_eq_div_pow]

theorem extractLsb'_eq_ofNat (start len : Nat) :
    w.extractLsb' start len = BitVec.ofNat len (w.toNat / 2 ^ start % 2 ^ len) := by
  apply BitVec.eq_of_toNat_eq
  simp [Nat.shiftRight_eq_div_pow]

theorem fieldX_eq_ofNat : fieldX w = BitVec.ofNat 4 (w.toNat / 256 % 16) := extractLsb'_eq_ofNat w 8 4

theorem fieldY_eq_ofNat : fieldY w = BitVec.ofNat 4 (w.toNat / 16 % 16) := extractLsb'_eq_ofNat w 4 4

theorem fieldN_eq_ofNat : fieldN w = BitVec.ofNat 4 (w.toNat % 16) := by
  rw [fieldN, extractLsb'_eq_ofNat, Nat.pow_zero, Nat.div_one]
  rfl

theorem fieldKK_eq_ofNat : fieldKK w = BitVec.ofNat 8 (w.toNat % 256) := by
  rw [fieldKK, extractLsb'_eq_ofNat, Nat.pow_zero, Nat.div_one]
  rfl

theorem fieldNNN_eq_ofNat : fieldNNN w = BitVec.ofNat 12 (w.toNat % 4096) := by
  rw [fieldNNN, extractLsb'_eq_ofNat, Nat.pow_zero, Nat.div_one]
  rfl

variable {w}

theorem fieldOP_eq_iff {op : Nibble} : fieldOP w = op ↔ w.toNat / 4096 = op.toNat := by
  rw [← fieldOP_toNat, BitVec.toNat_inj]

theorem fieldY_eq_iff {y : Nibble} : fieldY w = y ↔ w.toNat / 16 % 16 = y.toNat := by
  rw [← fieldY_toNat, BitVec.toNat_inj]

/-! ### Dispatch on the 1st nibble, in category 0x0 on the 3rd (R84) -/

theorem decodeCategory0_of_cls (hy : fieldY w = 0xE#4) : decodeCategory0 w = .cls (fieldX w) (fieldN w) := by
  simp [decodeCategory0, hy]

theorem isUnrecognized_decodeCategory0 (hy : fieldY w ≠ 0xE#4) : (decodeCategory0 w).isUnrecognized = true := by
  rcases nibble_cases (fieldY w) with h | h | h | h | h | h | h | h | h | h | h | h | h | h | h | h <;>
    simp [h, decodeCategory0, Instr.isUnrecognized] at hy ⊢

theorem decode_of_category0 (hop : fieldOP w = 0x0#4) : decode w = decodeCategory0 w := by
  simp [decode, hop]

/-- The categories R85 gives no instruction (R87 (b)). -/
theorem isUnrecognized_decode (hop : w.toNat / 4096 ∈ [0x2, 0x3, 0x4, 0x5, 0x8, 0x9, 0xB, 0xC, 0xE, 0xF]) :
    (decode w).isUnrecognized = true := by
  rw [← fieldOP_toNat] at hop
  rcases nibble_cases (fieldOP w) with h | h | h | h | h | h | h | h | h | h | h | h | h | h | h | h <;>
    simp [h, decode, Instr.isUnrecognized] at hop ⊢

/-- Settles O15: the decoder's dispatch, with each field it reads written as arithmetic on the word. -/
theorem decodeFollowsTheOpcodeMap : Obligations.DecodeFollowsTheOpcodeMap := by
  intro w
  simp only [← fieldX_eq_ofNat, ← fieldY_eq_ofNat, ← fieldN_eq_ofNat, ← fieldKK_eq_ofNat, ← fieldNNN_eq_ofNat]
  refine ⟨fun h0 hE => ?cls, fun h0 hE => ?unrec0, fun h => ?jp, fun h => ?ldV, fun h => ?addV, fun h => ?ldI,
    fun h => ?drw, isUnrecognized_decode⟩
  case cls =>
    have hdec : decode w = decodeCategory0 w := decode_of_category0 (fieldOP_eq_iff.2 h0)
    exact ⟨_, _, hdec.trans (decodeCategory0_of_cls (fieldY_eq_iff.2 hE))⟩
  case unrec0 =>
    rw [decode_of_category0 (fieldOP_eq_iff.2 h0)]
    exact isUnrecognized_decodeCategory0 (mt fieldY_eq_iff.1 hE)
  case jp => simp [decode, fieldOP_eq_iff (op := 0x1#4).2 h]
  case ldV => simp [decode, fieldOP_eq_iff (op := 0x6#4).2 h]
  case addV => simp [decode, fieldOP_eq_iff (op := 0x7#4).2 h]
  case ldI => simp [decode, fieldOP_eq_iff (op := 0xA#4).2 h]
  case drw => simp [decode, fieldOP_eq_iff (op := 0xD#4).2 h]

/-! ### The rows of the opcode table (R85, R86, R87) -/

theorem Instr.row_mem_opcodeTable (i : Instr) : i.row ∈ opcodeTable := by
  cases i <;> simp [opcodeTable, instructionRows, category0Rows, categoryRows, Instr.row]

/-- The law of each constructor's row, for all of them. -/
theorem Instr.row_selects_encode (i : Instr) : i.row.selects (encode i) = true := by
  cases i
  case ldVxByte x kk => exact Laws.RowMatch.ldVxByte x kk
  case addVxByte x kk => exact Laws.RowMatch.addVxByte x kk
  case drwVxVyN x y n => exact Laws.RowMatch.drwVxVyN x y n
  case jpAddr | ldIAddr | unrecOp2 | unrecOp3 | unrecOp4 | unrecOp5 | unrecOp8 | unrecOp9 | unrecOpB | unrecOpC
      | unrecOpE | unrecOpF =>
    exact Laws.RowMatch.selects_formatA _ _ _
  all_goals exact Laws.RowMatch.selects_formatXYN _ _ _ _ _

theorem TableRow.selects_iff {r : TableRow} {w : Word} : r.selects w = true ↔ w &&& r.mask = r.pattern := beq_iff_eq

/-- Two rows that select one word agree on the bits that both look at. -/
theorem TableRow.pattern_and_mask_eq {r r' : TableRow} {w : Word} (h : r.selects w = true) (h' : r'.selects w = true) :
    r.pattern &&& r'.mask = r'.pattern &&& r.mask := by
  rw [← TableRow.selects_iff.1 h, ← TableRow.selects_iff.1 h', BitVec.and_assoc, BitVec.and_assoc, BitVec.and_comm r.mask]

/-- Any two rows of the table differ in a bit that both look at. -/
theorem opcodeTable_pairwise : opcodeTable.Pairwise fun r r' => r.pattern &&& r'.mask ≠ r'.pattern &&& r.mask := by
  decide

theorem opcodeTable_selects_unique {r r' : TableRow} {w : Word} (hr : r ∈ opcodeTable) (hr' : r' ∈ opcodeTable)
    (h : r.selects w = true) (h' : r'.selects w = true) : r = r' := by
  by_contra hne
  have hsymm : Std.Symm fun r r' : TableRow => r.pattern &&& r'.mask ≠ r'.pattern &&& r.mask := ⟨fun _ _ => Ne.symm⟩
  exact opcodeTable_pairwise.forall hr hr' hne (TableRow.pattern_and_mask_eq h h')

/-- Settles O16: the row of the decoded instruction selects the word, and no other row of the table does. -/
theorem opcodeRowsPartitionTheWords : Obligations.OpcodeRowsPartitionTheWords := by
  refine ⟨rfl, fun w => ⟨(decode w).row_mem_opcodeTable, fun r hr => ?_⟩⟩
  have hrow : (decode w).row.selects w = true := by simpa using (decode w).row_selects_encode
  exact ⟨fun h => opcodeTable_selects_unique hr (decode w).row_mem_opcodeTable h hrow, fun h => h ▸ hrow⟩

/-- Settles O18: each word is evaluated. -/
theorem specVectorWordsDecode : Obligations.SpecVectorWordsDecode := by
  refine ⟨?_, ?_, ?_, ?_, ?_, ?_, ?_, ?_, ?_, ?_⟩ <;> decide

end Sys2Proof

namespace Sys2Proof.Machine

/-! ### The bytes of an item (R91, R92) -/

section Items
variable (labels : List (String × Nat))

theorem addressField_eq (a : Nat) : addressField a = if a < 4096 then some (BitVec.ofNat 12 a) else none := by
  simp [addressField, isAddress]

theorem bytes_jp_number (a : Nat) : AsmItem.bytes labels (.jp (.number a)) =
    if a < 4096 then some (encodeBytes (.jpAddr (BitVec.ofNat 12 a))) else none := by
  simp only [AsmItem.bytes, AsmTarget.resolve, Option.bind_some, addressField_eq]
  split <;> rfl

theorem bytes_ldI_number (a : Nat) : AsmItem.bytes labels (.ldI (.number a)) =
    if a < 4096 then some (encodeBytes (.ldIAddr (BitVec.ofNat 12 a))) else none := by
  simp only [AsmItem.bytes, AsmTarget.resolve, Option.bind_some, addressField_eq]
  split <;> rfl

theorem bytes_ldV (x k : Nat) : AsmItem.bytes labels (.ldV x k) =
    if x < 16 ∧ k < 256 then some (encodeBytes (.ldVxByte (BitVec.ofNat 4 x) (BitVec.ofNat 8 k))) else none := by
  simp [AsmItem.bytes, isRegNumber, isByte]

theorem bytes_addV (x k : Nat) : AsmItem.bytes labels (.addV x k) =
    if x < 16 ∧ k < 256 then some (encodeBytes (.addVxByte (BitVec.ofNat 4 x) (BitVec.ofNat 8 k))) else none := by
  simp [AsmItem.bytes, isRegNumber, isByte]

theorem bytes_drw (x y n : Nat) : AsmItem.bytes labels (.drw x y n) =
    if x < 16 ∧ y < 16 ∧ n < 16 then
      some (encodeBytes (.drwVxVyN (BitVec.ofNat 4 x) (BitVec.ofNat 4 y) (BitVec.ofNat 4 n)))
    else none := by
  simp [AsmItem.bytes, isRegNumber, isHeight, and_assoc]

theorem bytes_dw (w : Nat) : AsmItem.bytes labels (.dw w) =
    if w < 65536 then some (encodeBytes (decode (BitVec.ofNat 16 w))) else none := by
  simp [AsmItem.bytes, isWord, encodeBytes]

theorem bytes_db (bs : List Nat) : AsmItem.bytes labels (.db bs) =
    if ∀ b ∈ bs, b < 256 then some (bs.map (BitVec.ofNat 8)) else none := by
  simp [AsmItem.bytes, isByte]

end Items

/-- An item that places the bytes of `i` in range and is refused out of range: the bytes decode to `i`. -/
theorem decodes_of_bytes {p : Prop} [Decidable p] {o : Option (List Byte)} {i : Instr}
    (h : o = if p then some (encodeBytes i) else none) :
    if p then ∃ bs, o = some bs ∧ decodeBytes bs = .ok (i, []) else o = none := by
  subst h
  split
  · exact ⟨_, rfl, by simpa using decodeBytes_encodeBytes i []⟩
  · rfl

/-- A label that is defined is the number of its address. -/
theorem resolve_label_of_lookup {labels : List (String × Nat)} {name : String} {a : Nat} (h : labels.lookup name = some a) :
    AsmTarget.resolve labels (.label name) = AsmTarget.resolve labels (.number a) := h

/-- Settles O19, by the bytes of each item. -/
theorem assembledItemsDecode : Obligations.AssembledItemsDecode := by
  intro labels x y n k a w name bs
  refine ⟨?cls, decodes_of_bytes (bytes_jp_number labels a), decodes_of_bytes (bytes_ldI_number labels a),
    decodes_of_bytes (bytes_ldV labels x k), decodes_of_bytes (bytes_addV labels x k),
    decodes_of_bytes (bytes_drw labels x y n), decodes_of_bytes (bytes_dw labels w), ?defined, ?undefined, ?db, rfl⟩
  case cls => rfl
  case defined =>
    intro h
    simp only [AsmItem.bytes, resolve_label_of_lookup h, and_self]
  case undefined =>
    intro h
    simp [AsmItem.bytes, AsmTarget.resolve, h]
  case db =>
    rw [bytes_db]
    split <;> rfl

/-! ### The address of a label (R92) -/

/-- In a program whose labels are distinct, a label stands for the address after the items before it. -/
theorem lookup_asmLabels {a : Nat} {before after : List AsmItem} {name : String}
    (hnodup : ((asmLabels a (before ++ .label name :: after)).map Prod.fst).Nodup) :
    (asmLabels a (before ++ .label name :: after)).lookup name = some (a + (before.map AsmItem.size).sum) := by
  rw [asmLabels_append, asmLabels] at hnodup ⊢
  rw [List.map_append, List.nodup_append] at hnodup
  obtain ⟨-, -, hdisjoint⟩ := hnodup
  refine List.lookup_eq_some_iff.2 ⟨_, _, rfl, fun p hp => bne_iff_ne.2 fun heq => ?_⟩
  exact hdisjoint p.1 (List.mem_map_of_mem hp) name List.mem_cons_self heq.symm

/-- A label places nothing. -/
theorem asmBytes_label (labels : List (String × Nat)) (name : String) (p : List AsmItem) :
    asmBytes labels (.label name :: p) = asmBytes labels p := by
  simp only [asmBytes, AsmItem.bytes]
  cases asmBytes labels p <;> rfl

/-- Settles O48: the label's address is 0x200 plus the sizes of the items before it, which are the bytes they place. -/
theorem labelsNameTheNextByte : Obligations.LabelsNameTheNextByte := by
  intro before after name image h
  obtain ⟨hnodup, hbytes, -⟩ := assemble_some h
  obtain ⟨placed, rest, hplaced, hrest, himage⟩ := asmBytes_append hbytes
  rw [asmBytes_label] at hrest
  exact ⟨placed, rest, himage, hplaced, hrest, by rw [lookup_asmLabels hnodup, asmBytes_length hplaced]⟩

/-! ### Reading a line of one statement (log entry 14) -/

/-- A character that neither ends a word of the text nor its line. -/
def isWordChar (c : Char) : Bool := c ∉ [';', ' ', '\t', '\r', ',', ':', '\n']

/-- A word of the text: characters that `tokens` keeps together, on one line. -/
def isWord (t : AsmToken) : Bool := !t.isEmpty && t.all isWordChar

theorem isWord_iff {t : AsmToken} : isWord t = true ↔ t ≠ [] ∧ ∀ c ∈ t, isWordChar c = true := by
  simp [isWord]

theorem tokens_wordChar {c : Char} (hc : isWordChar c = true) (word : AsmToken) (cs : List Char) :
    tokens word (c :: cs) = tokens (c :: word) cs := by
  simp only [isWordChar, List.mem_cons, List.not_mem_nil, or_false, not_or, decide_eq_true_eq] at hc
  simp [tokens, hc]

theorem tokens_wordChars {t : AsmToken} (ht : ∀ c ∈ t, isWordChar c = true) (word : AsmToken) (cs : List Char) :
    tokens word (t ++ cs) = tokens (t.reverse ++ word) cs := by
  induction t generalizing word with
  | nil => rfl
  | cons c t ih =>
    obtain ⟨hc, ht⟩ := List.forall_mem_cons.1 ht
    simp [tokens_wordChar hc, ih ht]

theorem tokens_blank (cs : List Char) : tokens [] (' ' :: cs) = tokens [] cs := by
  simp [tokens]

theorem tokens_word_end {t : AsmToken} (ht : isWord t = true) : tokens [] t = [t] := by
  obtain ⟨hne, hchars⟩ := isWord_iff.1 ht
  simpa [tokens, hne] using tokens_wordChars hchars [] []

theorem tokens_word_blank {t : AsmToken} (ht : isWord t = true) (cs : List Char) :
    tokens [] (t ++ ' ' :: cs) = t :: tokens [] cs := by
  obtain ⟨hne, hchars⟩ := isWord_iff.1 ht
  simp [tokens_wordChars hchars, tokens, hne]

theorem tokens_word_comma {t : AsmToken} (ht : isWord t = true) (cs : List Char) :
    tokens [] (t ++ ',' :: cs) = t :: [','] :: tokens [] cs := by
  obtain ⟨hne, hchars⟩ := isWord_iff.1 ht
  simp [tokens_wordChars hchars, tokens, hne]

theorem tokens_comment (cs : List Char) : tokens [] (';' :: cs) = [] := by
  simp [tokens]

/-- The operands of a statement as the disassembler writes them: a comma and a blank between two. -/
def operandText (args : List AsmToken) : List Char := [',', ' '].intercalate args

theorem operandText_cons_cons (a b : AsmToken) (args : List AsmToken) :
    operandText (a :: b :: args) = a ++ ',' :: ' ' :: operandText (b :: args) := by
  simp [operandText]

theorem tokens_operandText {args : List AsmToken} (h : ∀ a ∈ args, isWord a = true) :
    tokens [] (operandText args) = args.intersperse [','] := by
  induction args with
  | nil => rfl
  | cons a args ih =>
    obtain ⟨ha, hargs⟩ := List.forall_mem_cons.1 h
    cases args with
    | nil => simpa [operandText] using tokens_word_end ha
    | cons b args =>
      rw [operandText_cons_cons, tokens_word_comma ha, tokens_blank, ih hargs, List.intersperse_cons_cons]

theorem ne_comma_of_isWord {t : AsmToken} (ht : isWord t = true) : t ≠ [','] := by
  rintro rfl
  exact absurd ht (by decide)

theorem ne_colon_of_isWord {t : AsmToken} (ht : isWord t = true) : t ≠ [':'] := by
  rintro rfl
  exact absurd ht (by decide)

theorem operands_intersperse {args : List AsmToken} (h : ∀ a ∈ args, isWord a = true) :
    operands (args.intersperse [',']) = some args := by
  induction args with
  | nil => rfl
  | cons a args ih =>
    obtain ⟨ha, hargs⟩ := List.forall_mem_cons.1 h
    cases args with
    | nil => simp [operands, ne_comma_of_isWord ha]
    | cons b args =>
      have hrest : (b :: args).intersperse [','] ≠ [] := by cases args <;> simp
      rw [List.intersperse_cons_cons, operands, ih hargs]
      simp [ne_comma_of_isWord ha, hrest]

/-- A line whose second word is no colon has no label. -/
theorem parseLine_no_label {line : List Char} {op : AsmToken} {ts : List AsmToken} (h : tokens [] line = op :: ts)
    (hts : ts.head? ≠ some [':']) : parseLine line = parseRest (op :: ts) := by
  rw [parseLine, h]
  split
  · rename_i heq
    cases heq
    exact absurd rfl hts
  · rfl

theorem head?_intersperse_ne_colon {args : List AsmToken} (h : ∀ a ∈ args, isWord a = true) :
    (args.intersperse [',']).head? ≠ some [':'] := by
  match args with
  | [] => simp
  | [a] => simpa using ne_colon_of_isWord (h a (by simp))
  | a :: b :: _ => simpa using ne_colon_of_isWord (h a (by simp))

theorem parseLine_statement {op : AsmToken} {args : List AsmToken} (hop : isWord op = true)
    (hargs : ∀ a ∈ args, isWord a = true) :
    parseLine (op ++ ' ' :: operandText args) = (parseStatement op args).map fun item => [item] := by
  have htokens : tokens [] (op ++ ' ' :: operandText args) = op :: args.intersperse [','] := by
    rw [tokens_word_blank hop, tokens_operandText hargs]
  rw [parseLine_no_label htokens (head?_intersperse_ne_colon hargs), parseRest, operands_intersperse hargs]
  rfl

/-! ### A source of one line -/

theorem sourceLines_line {cs : List Char} (h : '\n' ∉ cs) (line : List Char) :
    sourceLines line cs = [line.reverse ++ cs] := by
  induction cs generalizing line with
  | nil => simp [sourceLines]
  | cons c cs ih =>
    obtain ⟨hc, hcs⟩ := not_or.1 (mt List.mem_cons.2 h)
    simp [sourceLines, Ne.symm hc, ih hcs]

theorem parseSource_line {source : String} (h : '\n' ∉ source.toList) : parseSource source = parseLine source.toList := by
  rw [parseSource, sourceLines_line h]
  simp only [parseLines, List.reverse_nil, List.nil_append]
  cases parseLine source.toList <;> simp

theorem newline_notMem_of_isWord {t : AsmToken} (ht : isWord t = true) : '\n' ∉ t := fun hmem => by
  simpa [isWordChar] using (isWord_iff.1 ht).2 _ hmem

theorem newline_notMem_operandText {args : List AsmToken} (h : ∀ a ∈ args, isWord a = true) : '\n' ∉ operandText args := by
  induction args with
  | nil => simp [operandText]
  | cons a args ih =>
    obtain ⟨ha, hargs⟩ := List.forall_mem_cons.1 h
    cases args with
    | nil => simpa [operandText] using newline_notMem_of_isWord ha
    | cons b args => simp [operandText_cons_cons, newline_notMem_of_isWord ha, ih hargs]

theorem parseSource_statement {source : String} {op : AsmToken} {args : List AsmToken} (hop : isWord op = true)
    (hargs : ∀ a ∈ args, isWord a = true) (h : source.toList = op ++ ' ' :: operandText args) :
    parseSource source = (parseStatement op args).map fun item => [item] := by
  have hline : '\n' ∉ source.toList := by
    rw [h]
    simp [newline_notMem_of_isWord hop, newline_notMem_operandText hargs]
  rw [parseSource_line hline, h, parseLine_statement hop hargs]

/-- A source of one item that places the bytes of an instruction, and so is no label. -/
theorem assembleSource_of_item {source : String} {item : AsmItem} {i : Instr} (hsource : parseSource source = some [item])
    (hbytes : item.bytes [] = some (encodeBytes i)) : assembleSource source = some (encodeBytes i) := by
  have hlabels : asmLabels Config.entry [item] = [] := by
    cases item with
    | label name => simp [AsmItem.bytes, encodeBytes] at hbytes
    | _ => rfl
  simp [assembleSource, hsource, assemble, hlabels, asmBytes, hbytes, isImage, encodeBytes]

/-! ### The numbers and register names of the disassembler (R91, R93) -/

@[simp] theorem isWordChar_hexDigit (n : Nibble) : isWordChar (hexDigit n) = true := by
  revert n
  decide

@[simp] theorem digitValue_hexDigit (n : Nibble) : digitValue (hexDigit n) = some n.toNat := by
  revert n
  decide

theorem hexDigit_toNat_le (n : Nibble) : (hexDigit n).toNat ≤ 70 := by
  revert n
  decide

@[simp] theorem digitsValue_nil (base acc : Nat) : digitsValue base acc [] = some acc := rfl

@[simp] theorem digitsValue_hexDigit (acc : Nat) (n : Nibble) (cs : List Char) :
    digitsValue 16 acc (hexDigit n :: cs) = digitsValue 16 (acc * 16 + n.toNat) cs := by
  have hn : n.toNat < 16 := n.isLt
  simp [digitsValue, hn]

theorem isWord_hexNumber (ns : List Nibble) : isWord ('0' :: 'x' :: ns.map hexDigit) = true := by
  have h0 : isWordChar '0' = true := rfl
  have hx : isWordChar 'x' = true := rfl
  simp [isWord, h0, hx]

@[simp] theorem isWord_hex4 (n : Nibble) : isWord (hex4 n).toList = true := by
  simpa [hex4] using isWord_hexNumber [n]

@[simp] theorem isWord_hex8 (b : Byte) : isWord (hex8 b).toList = true := by
  simpa [hex8] using isWord_hexNumber [b.extractLsb' 4 4, b.extractLsb' 0 4]

@[simp] theorem isWord_hex12 (a : Addr12) : isWord (hex12 a).toList = true := by
  simpa [hex12] using isWord_hexNumber [a.extractLsb' 8 4, a.extractLsb' 4 4, a.extractLsb' 0 4]

@[simp] theorem isWord_hex16 (w : Word) : isWord (hex16 w).toList = true := by
  simpa [hex16] using isWord_hexNumber [fieldOP w, fieldX w, fieldY w, fieldN w]

@[simp] theorem isWord_vName (x : Nibble) : isWord (vName x).toList = true := by
  have hV : isWordChar 'V' = true := rfl
  simp [vName, isWord, hV]

theorem parseNumber_hexDigit (n : Nibble) (cs : List Char) :
    parseNumber ('0' :: 'x' :: hexDigit n :: cs) = digitsValue 16 n.toNat cs := by
  simp [parseNumber]

@[simp] theorem parseNumber_hex4 (n : Nibble) : parseNumber (hex4 n).toList = some n.toNat := by
  simp [hex4, parseNumber_hexDigit]

@[simp] theorem parseNumber_hex8 (b : Byte) : parseNumber (hex8 b).toList = some b.toNat := by
  have hb : b.toNat < 256 := b.isLt
  have hvalue : b.toNat / 2 ^ 4 % 2 ^ 4 * 16 + b.toNat % 2 ^ 4 = b.toNat := by omega
  simpa [hex8, parseNumber_hexDigit, Nat.shiftRight_eq_div_pow] using hvalue

@[simp] theorem parseNumber_hex12 (a : Addr12) : parseNumber (hex12 a).toList = some a.toNat := by
  have ha : a.toNat < 4096 := a.isLt
  have hvalue : (a.toNat / 2 ^ 8 % 2 ^ 4 * 16 + a.toNat / 2 ^ 4 % 2 ^ 4) * 16 + a.toNat % 2 ^ 4 = a.toNat := by omega
  simpa [hex12, parseNumber_hexDigit, Nat.shiftRight_eq_div_pow] using hvalue

@[simp] theorem parseNumber_hex16 (w : Word) : parseNumber (hex16 w).toList = some w.toNat := by
  have hvalue : ((w.toNat / 4096 * 16 + w.toNat / 256 % 16) * 16 + w.toNat / 16 % 16) * 16 + w.toNat % 16 = w.toNat := by
    omega
  simpa [hex16, parseNumber_hexDigit, fieldOP_toNat, fieldX_eq_ofNat, fieldY_eq_ofNat, fieldN_eq_ofNat] using hvalue

@[simp] theorem parseRegister_vName (x : Nibble) : parseRegister (vName x).toList = some x.toNat := by
  simp [vName, parseRegister, hexDigit_toNat_le]

/-- A number begins with a digit, so it is no label. -/
@[simp] theorem parseTarget_hex12 (a : Addr12) : parseTarget (hex12 a).toList = some (.number a.toNat) := by
  have hnumber := parseNumber_hex12 a
  simp only [hex12, String.toList_ofList] at hnumber ⊢
  simp [parseTarget, hnumber]

/-! ### The disassembly assembles back (R93) -/

theorem parseSource_jp (nnn : Addr12) : parseSource (disassemble (.jpAddr nnn)) = some [.jp (.number nnn.toNat)] := by
  rw [parseSource_statement (op := ['J', 'P']) (args := [(hex12 nnn).toList]) (by decide) (by simp)
    (by simp [disassemble, operandText])]
  simp [parseStatement, parseOne]

theorem parseSource_ldI (nnn : Addr12) : parseSource (disassemble (.ldIAddr nnn)) = some [.ldI (.number nnn.toNat)] := by
  have hI : isWord ['I'] = true := rfl
  rw [parseSource_statement (op := ['L', 'D']) (args := [['I'], (hex12 nnn).toList]) (by decide)
    (by simp [hI]) (by simp [disassemble, operandText])]
  simp [parseStatement, parseTwo]

theorem vName_toList_ne_I (x : Nibble) : (vName x).toList ≠ ['I'] := by
  simp [vName]

theorem parseSource_ldV (x : Nibble) (kk : Byte) :
    parseSource (disassemble (.ldVxByte x kk)) = some [.ldV x.toNat kk.toNat] := by
  rw [parseSource_statement (op := ['L', 'D']) (args := [(vName x).toList, (hex8 kk).toList]) (by decide) (by simp)
    (by simp [disassemble, operandText])]
  simp [parseStatement, parseTwo, vName_toList_ne_I]

theorem parseSource_addV (x : Nibble) (kk : Byte) :
    parseSource (disassemble (.addVxByte x kk)) = some [.addV x.toNat kk.toNat] := by
  rw [parseSource_statement (op := ['A', 'D', 'D']) (args := [(vName x).toList, (hex8 kk).toList]) (by decide) (by simp)
    (by simp [disassemble, operandText])]
  simp [parseStatement, parseTwo]

theorem parseSource_drw (x y n : Nibble) :
    parseSource (disassemble (.drwVxVyN x y n)) = some [.drw x.toNat y.toNat n.toNat] := by
  rw [parseSource_statement (op := ['D', 'R', 'W']) (args := [(vName x).toList, (vName y).toList, (hex4 n).toList])
    (by decide) (by simp) (by simp [disassemble, operandText])]
  simp [parseStatement, parseThree]

theorem parseSource_dw (w : Word) : parseSource ("DW " ++ hex16 w) = some [.dw w.toNat] := by
  rw [parseSource_statement (op := ['D', 'W']) (args := [(hex16 w).toList]) (by decide) (by simp) (by simp [operandText])]
  simp [parseStatement, parseOne]

theorem parseSource_cls_of_tokens {source : String} (hline : '\n' ∉ source.toList)
    (h : tokens [] source.toList = [['C', 'L', 'S']]) : parseSource source = some [.cls] := by
  rw [parseSource_line hline, parseLine_no_label h (by simp)]
  rfl

/-- The raw word beside a CLS is a comment. -/
theorem parseSource_cls (n2 n4 : Nibble) : parseSource (disassemble (.cls n2 n4)) = some [.cls] := by
  have hop : isWord ['C', 'L', 'S'] = true := rfl
  rw [disassemble]
  split
  · exact parseSource_cls_of_tokens (by decide) (tokens_word_end hop)
  · have htext : ("CLS ; " ++ hex16 (encode (.cls n2 n4))).toList =
        ['C', 'L', 'S'] ++ ' ' :: ';' :: ' ' :: (hex16 (encode (.cls n2 n4))).toList := by simp
    apply parseSource_cls_of_tokens
    · rw [htext]
      simp [newline_notMem_of_isWord]
    · rw [htext, tokens_word_blank hop, tokens_comment]

/-- The bytes of `DW w` are those of the instruction whose word is `w`. -/
theorem assembleSource_dw (i : Instr) : assembleSource ("DW " ++ hex16 (encode i)) = some (encodeBytes i) :=
  assembleSource_of_item (parseSource_dw _) (by
    have hw : (encode i).toNat < 65536 := (encode i).isLt
    simp [bytes_dw, hw])

/-- Settles O20: the text of each of the six instructions is read back as the item of its operands, and every other text as a
`DW` of the word. -/
theorem disassemblyAssemblesBack : Obligations.DisassemblyAssemblesBack := by
  refine ⟨fun n2 n4 => assembleSource_of_item (i := .cls 0 0) (parseSource_cls n2 n4) rfl, fun i hcls => ?_⟩
  cases i
  case cls n2 n4 => exact absurd rfl (hcls n2 n4)
  case jpAddr nnn =>
    exact assembleSource_of_item (parseSource_jp nnn) (by simp [bytes_jp_number, nnn.isLt])
  case ldVxByte x kk =>
    exact assembleSource_of_item (parseSource_ldV x kk) (by simp [bytes_ldV, x.isLt, kk.isLt])
  case addVxByte x kk =>
    exact assembleSource_of_item (parseSource_addV x kk) (by simp [bytes_addV, x.isLt, kk.isLt])
  case ldIAddr nnn =>
    exact assembleSource_of_item (parseSource_ldI nnn) (by simp [bytes_ldI_number, nnn.isLt])
  case drwVxVyN x y n =>
    exact assembleSource_of_item (parseSource_drw x y n) (by simp [bytes_drw, x.isLt, y.isLt, n.isLt])
  all_goals exact assembleSource_dw _

end Sys2Proof.Machine
end

section
/-! The statements of 40_cls.md: CLS (R100). -/

namespace Sys2Proof

/-! ### The words of a row (30_encoding.md R85) -/

/-- The words a row of the table selects are those that decode to an instruction of that row. -/
theorem and_mask_eq_pattern_iff {r : TableRow} (hr : r ∈ opcodeTable) (w : Word) :
    w &&& r.mask = r.pattern ↔ r = (decode w).row := by
  obtain ⟨_, hrows⟩ := opcodeRowsPartitionTheWords
  exact TableRow.selects_iff.symm.trans ((hrows w).2 r hr)

theorem row_cls_eq_iff {i : Instr} : (Instr.cls 0 0).row = i.row ↔ ∃ n2 n4, i = .cls n2 n4 := by
  cases i <;> simp [Instr.row]

/-- CLS is the row of mask 0xF0F0: the 2nd and the 4th nibble are not looked at. -/
theorem and_mask_eq_cls_iff (w : Word) : w &&& 0xF0F0#16 = 0x00E0#16 ↔ ∃ n2 n4, decode w = .cls n2 n4 :=
  (and_mask_eq_pattern_iff (Instr.cls 0 0).row_mem_opcodeTable w).trans row_cls_eq_iff

end Sys2Proof

namespace Sys2Proof.Machine

/-! ### The blank display (10_state.md R32) -/

@[simp] theorem blankDisplay_row (r : Nat) (hr : r < 32) : blankDisplay[r] = 0x0000000000000000#64 := by
  simp [blankDisplay]

@[simp] theorem blankDisplay_pixel (r : Fin 32) (c : Fin 64) : Display.pixel blankDisplay r c = false := by
  simp [Display.pixel]

/-! ### CLS -/

/-- One result for every spelling: neither ignored nibble stands in it. -/
theorem exec_cls (n2 n4 : Nibble) (s : State) :
    exec (.cls n2 n4) s = .next ((s.setDisplay blankDisplay).setNeedsRedraw true) := rfl

/-- Settles O21: the CLS row of the opcode table gives the words, and `exec_cls` the state; clearing a blank display whose
flag is set writes what is there. -/
theorem clsClearsTheDisplay : Obligations.ClsClearsTheDisplay := by
  refine ⟨and_mask_eq_cls_iff, by decide, fun n2 n4 s => ?_⟩
  refine ⟨_, exec_cls n2 n4 s, ?rows, ?pixels, rfl, ?frame, ?again, fun m2 m4 => exec_cls m2 m4 s⟩
  case rows => exact blankDisplay_row
  case pixels => exact blankDisplay_pixel
  case frame => rfl
  case again => exact exec_cls n2 n4 _

end Sys2Proof.Machine
end

section
/-! The statements of 41_jump.md: JP (R110) and the path of `pc` (R111). -/

namespace Sys2Proof

/-! ### The words of JP (30_encoding.md R82, R85) -/

theorem formatA_toNat (op : Nibble) (nnn : Addr12) : (formatA op nnn).toNat = op.toNat * 4096 + nnn.toNat := by
  rw [formatA, BitVec.toNat_append, ← Nat.shiftLeft_add_eq_or_of_lt nnn.isLt, Nat.shiftLeft_eq]

theorem row_jpAddr_eq_iff {i : Instr} : (Instr.jpAddr 0).row = i.row ↔ ∃ nnn, i = .jpAddr nnn := by
  cases i <;> simp [Instr.row]

theorem and_mask_eq_jpAddr_iff (w : Word) : w &&& 0xF000#16 = 0x1000#16 ↔ ∃ nnn, decode w = .jpAddr nnn :=
  (and_mask_eq_pattern_iff (Instr.jpAddr 0).row_mem_opcodeTable w).trans row_jpAddr_eq_iff

end Sys2Proof

namespace Sys2Proof.Machine

variable {s u : State}

/-! ### JP and the core that stays in place (R110) -/

theorem exec_jpAddr (nnn : Addr12) (s : State) : exec (.jpAddr nnn) s = .next (s.setPc (addressOperand nnn)) := rfl

theorem addressOperand_eq_iff {nnn : Addr12} {w : Word} : addressOperand nnn = w ↔ nnn.toNat = w.toNat := by
  rw [← BitVec.toNat_inj, addressOperand_toNat]

/-- The target overwrites the advance of the fetch. -/
theorem step_jpAddr {nnn : Addr12} (hrun : s.fault = none) (hpc : s.pc.toNat ≤ 0xFFE)
    (hj : decode (fetchedWord s) = .jpAddr nnn) : step s = .next (s.setPc (addressOperand nnn)) := by
  rw [step_running hrun hpc, hj, exec_jpAddr]
  rfl

/-- A faulting fetch sets the latch, and a word that is no jump moves `pc` by 2, so only a jump can leave the state as it is. -/
theorem step_eq_self_iff (hrun : s.fault = none) : step s = .next s ↔
    s.pc.toNat ≤ 0xFFE ∧ ∃ nnn, decode (fetchedWord s) = .jpAddr nnn ∧ nnn.toNat = s.pc.toNat := by
  constructor
  · intro h
    obtain ⟨hpc, -⟩ | ⟨hpc, nnn, hj, ht⟩ | ⟨-, -, ht⟩ := step_pc_cases h
    · have hlatch : s.setFault (some .fetchBounds) = s := Host.Outcome.next.inj ((step_fetchBounds hrun hpc).symm.trans h)
      cases hrun.symm.trans (congrArg State.fault hlatch).symm
    · exact ⟨hpc, nnn, hj, ht.symm⟩
    · omega
  · rintro ⟨hpc, nnn, hj, hself⟩
    rw [step_jpAddr hrun hpc hj, addressOperand_eq_iff.2 hself]
    rfl

/-- Settles O22: the JP row of the opcode table gives the words, `exec_jpAddr` the state, and `step_eq_self_iff` the jump in
place; at 0xFFF the next fetch is out of bounds. -/
theorem jpSetsThePc : Obligations.JpSetsThePc := by
  refine ⟨and_mask_eq_jpAddr_iff, fun nnn => formatA_toNat 0x1#4 nnn, fun nnn s => ?effect, fun _ => step_eq_self_iff, ?top⟩
  case effect => exact ⟨_, exec_jpAddr nnn s, addressOperand_toNat nnn, rfl⟩
  case top =>
    intro s t hrun h
    cases h
    exact ⟨hrun, rfl, step_fetchBounds hrun (addressOperand_toNat 0xFFF#12).ge⟩

/-! ### The path of `pc` (R111) -/

/-- What fixes the path of `pc`: `s` and `u` are at the same `pc` and read the same byte at every address. -/
def State.SamePath (s u : State) : Prop := s.pc = u.pc ∧ ∀ a : Nat, s.memRead a = u.memRead a

/-- The fetch reads `pc` and memory alone. -/
theorem State.SamePath.fetchedWord_eq (h : s.SamePath u) (hpc : s.pc.toNat ≤ 0xFFE) : fetchedWord s = fetchedWord u := by
  obtain ⟨hpcs, hmem⟩ := h
  have hread {a : Nat} (ha : a ≤ 0xFFF) : u.memRead a = some (s.memory.byteAt a) :=
    (hmem a).symm.trans (State.memRead_eq_some.2 ⟨ha, rfl⟩)
  rw [hpcs] at hpc
  rw [fetchedWord_of_memRead (hread (by omega)) (hread (by omega)), fetchedWord, hpcs]

/-- By the three ways a step leaves `pc`; the fetched word, the same in both, decides which. -/
theorem State.SamePath.step_pc_eq {s' u' : State} (h : s.SamePath u) (hs : step s = .next s') (hu : step u = .next u') :
    s'.pc = u'.pc := by
  have hpcs : s.pc = u.pc := h.1
  obtain ⟨hout, hin⟩ := pcAfterAStep s s' hs
  obtain ⟨hout', hin'⟩ := pcAfterAStep u u' hu
  rw [← hpcs] at hout' hin'
  rcases Nat.lt_or_ge 0xFFF (s.pc.toNat + 1) with hpc | hpc
  · exact (hout hpc).trans (hout' hpc).symm
  · obtain ⟨hjump, hnext⟩ := hin hpc
    obtain ⟨hjump', hnext'⟩ := hin' hpc
    rw [← h.fetchedWord_eq (Nat.le_of_succ_le_succ hpc)] at hjump' hnext'
    apply BitVec.eq_of_toNat_eq
    by_cases hj : ∃ nnn, decode (fetchedWord s) = .jpAddr nnn
    · obtain ⟨nnn, hj⟩ := hj
      exact (hjump nnn hj).trans (hjump' nnn hj).symm
    · exact (hnext (not_exists.1 hj)).trans (hnext' (not_exists.1 hj)).symm

theorem State.SamePath.step {s' u' : State} (h : s.SamePath u) (hs : step s = .next s') (hu : step u = .next u') :
    s'.SamePath u' :=
  ⟨h.step_pc_eq hs hu, fun a => by
    rw [State.memRead_congr (step_memory hs), State.memRead_congr (step_memory hu), h.2 a]⟩

/-- What every pair of steps keeps, every pair of runs of one length keeps: `run_keeps` for two runs. -/
theorem run_keeps_both {R : State → State → Prop}
    (hstep : ∀ s u s' u' : State, R s u → step s = .next s' → step u = .next u' → R s' u') {n : Nat} {s u s' u' : State}
    (h : R s u) (hs : core.run n s = .next s') (hu : core.run n u = .next u') : R s' u' := by
  induction n generalizing s u with
  | zero =>
    cases hs
    cases hu
    exact h
  | succ n ih =>
    obtain ⟨v, hv, hs⟩ := run_succ_next.1 hs
    obtain ⟨w, hw, hu⟩ := run_succ_next.1 hu
    exact ih (hstep s u v w h hv hw) hs hu

/-- Settles O38: two steps from states on the same path end on the same path, and so do two runs. -/
theorem pcPathIsFixedByMemory : Obligations.PcPathIsFixedByMemory := fun _ _ _ _ _ hpc hmem hs hu =>
  (run_keeps_both (R := State.SamePath) (fun _ _ _ _ => State.SamePath.step) ⟨hpc, hmem⟩ hs hu).1

end Sys2Proof.Machine
end

section
/-! The statements of 42_register_immediate.md: LD Vx (R120), ADD Vx (R124) and LD I (R128). -/

namespace Sys2Proof

/-! ### The words of the three rows (30_encoding.md R82, R85) -/

theorem append_nibbles_toNat (op x : Nibble) : (op ++ x).toNat = op.toNat * 16 + x.toNat := by
  rw [BitVec.toNat_append, ← Nat.shiftLeft_add_eq_or_of_lt x.isLt, Nat.shiftLeft_eq]

/-- The word's first byte is `op ++ x`, its second the immediate. -/
theorem formatXB_toNat (op x : Nibble) (kk : Byte) :
    (formatXB op x kk).toNat = op.toNat * 4096 + x.toNat * 256 + kk.toNat := by
  have hbytes : formatXB op x kk = wordOfBytes (op ++ x) kk := rfl
  rw [hbytes, wordOfBytes_toNat, append_nibbles_toNat]
  omega

theorem row_ldVxByte_eq_iff {i : Instr} : (Instr.ldVxByte 0 0).row = i.row ↔ ∃ x kk, i = .ldVxByte x kk := by
  cases i <;> simp [Instr.row]

theorem row_addVxByte_eq_iff {i : Instr} : (Instr.addVxByte 0 0).row = i.row ↔ ∃ x kk, i = .addVxByte x kk := by
  cases i <;> simp [Instr.row]

theorem row_ldIAddr_eq_iff {i : Instr} : (Instr.ldIAddr 0).row = i.row ↔ ∃ nnn, i = .ldIAddr nnn := by
  cases i <;> simp [Instr.row]

theorem and_mask_eq_ldVxByte_iff (w : Word) : w &&& 0xF000#16 = 0x6000#16 ↔ ∃ x kk, decode w = .ldVxByte x kk :=
  (and_mask_eq_pattern_iff (Instr.ldVxByte 0 0).row_mem_opcodeTable w).trans row_ldVxByte_eq_iff

theorem and_mask_eq_addVxByte_iff (w : Word) : w &&& 0xF000#16 = 0x7000#16 ↔ ∃ x kk, decode w = .addVxByte x kk :=
  (and_mask_eq_pattern_iff (Instr.addVxByte 0 0).row_mem_opcodeTable w).trans row_addVxByte_eq_iff

theorem and_mask_eq_ldIAddr_iff (w : Word) : w &&& 0xF000#16 = 0xA000#16 ↔ ∃ nnn, decode w = .ldIAddr nnn :=
  (and_mask_eq_pattern_iff (Instr.ldIAddr 0).row_mem_opcodeTable w).trans row_ldIAddr_eq_iff

end Sys2Proof

namespace Sys2Proof.Machine

/-! ### The register and index loads and the 8-bit add -/

theorem exec_ldVxByte (x : Nibble) (kk : Byte) (s : State) : exec (.ldVxByte x kk) s = .next (s.writeV x kk) := rfl

theorem exec_addVxByte (x : Nibble) (kk : Byte) (s : State) :
    exec (.addVxByte x kk) s = .next (s.writeV x (add8 (s.readV x) kk)) := rfl

theorem exec_ldIAddr (nnn : Addr12) (s : State) : exec (.ldIAddr nnn) s = .next (s.setI (addressOperand nnn)) := rfl

theorem add8_toNat (a b : Byte) : (add8 a b).toNat = (a.toNat + b.toNat) % 256 := BitVec.toNat_add a b

theorem addressOperand_le_memTop (nnn : Addr12) : (addressOperand nnn).toNat ≤ 0xFFF :=
  (addressOperand_toNat nnn).trans_le (Nat.le_of_lt_succ nnn.isLt)

/-- Settles O23: `exec_ldVxByte` is one register write, so the other registers are read as before it. -/
theorem ldVxLoadsTheByte : Obligations.LdVxLoadsTheByte := by
  refine ⟨and_mask_eq_ldVxByte_iff, fun x kk => formatXB_toNat 0x6#4 x kk, fun x kk s => ?_⟩
  exact ⟨_, exec_ldVxByte x kk s, s.readV_writeV_same x kk, fun y hy => s.readV_writeV_other hy.symm kk, rfl⟩

/-- Settles O24: `exec_addVxByte` is one register write, of the sum as `add8_toNat` gives it. -/
theorem addVxWrapsAt256 : Obligations.AddVxWrapsAt256 := by
  refine ⟨and_mask_eq_addVxByte_iff, fun x kk => formatXB_toNat 0x7#4 x kk, fun x kk s => ?_⟩
  refine ⟨_, exec_addVxByte x kk s, ?sum, fun y hy => s.readV_writeV_other hy.symm _, rfl⟩
  case sum => rw [State.readV_writeV_same, add8_toNat]

/-- Settles O25: `exec_ldIAddr` writes `I` alone, and the zero-extended operand keeps its value, below 4096. -/
theorem ldILoadsTheAddress : Obligations.LdILoadsTheAddress := by
  refine ⟨and_mask_eq_ldIAddr_iff, fun nnn => formatA_toNat 0xA#4 nnn, fun nnn s => ?_⟩
  exact ⟨_, exec_ldIAddr nnn s, addressOperand_toNat nnn, addressOperand_le_memTop nnn, rfl⟩

end Sys2Proof.Machine
end

section
/-! The statements of 43_sprite_draw.md: DRW (R140 to R149). -/

namespace Sys2Proof.Machine

variable {s t : State} {x y n : Nibble}

/-! ### The row-at-a-time form (R145) -/

/-- The case R145 sets apart, rotation by 0, is no exception: the left shift by 64 leaves nothing. -/
theorem ror64_eq_rotateRight (v : RowWord) (k : Nat) : ror64 v (k % 64) = v.rotateRight k := by
  rw [BitVec.rotateRight_def, ror64]
  split
  case isTrue h => simp [h]
  case isFalse => rfl

/-- Rotated right by the start column, bit `63 - i` of a row word lies under sprite column `i`. -/
theorem rotateRight_targetColumn (v : RowWord) (x0 : Nat) {i : Nat} (hi : i < 64) :
    (v.rotateRight x0).getLsbD (columnBit (targetColumn x0 i)) = v.getLsbD (63 - i) := by
  simp only [BitVec.getLsbD_rotateRight, columnBit, targetColumn]
  rcases Nat.lt_or_ge (x0 % 64 + i) 64 with hwrap | hwrap
  · have hc : (x0 + i) % 64 = x0 % 64 + i := by omega
    rw [hc, decide_eq_true (by omega), cond_true]
    congr 1
    omega
  · have hc : (x0 + i) % 64 = x0 % 64 + i - 64 := by omega
    rw [hc, decide_eq_false (by omega), cond_false, decide_eq_true (by omega), Bool.true_and]
    congr 1
    omega

theorem rowMask_targetColumn (x0 : Nat) (b : Byte) {i : Nat} (hi : i < 64) :
    (rowMask x0 b).getLsbD (columnBit (targetColumn x0 i)) = (decide (i < 8) && spriteBit b i) := by
  rw [rowMask, ror64_eq_rotateRight, rotateRight_targetColumn _ _ hi, spriteBit]
  by_cases hsprite : i < 8
  · simp [hsprite, show ¬ 63 - i < 56 by omega, show 63 - i - 56 = 7 - i by omega, show 63 - i < 64 by omega]
  · simp [hsprite, show 63 - i < 56 by omega]

/-- The 64 columns counted from the start column reach every column of the display. -/
theorem exists_targetColumn (x0 : Nat) (c : Fin 64) : ∃ i < 64, targetColumn x0 i = c := by
  refine ⟨(c.val + 64 - x0 % 64) % 64, Nat.mod_lt _ (by decide), Fin.ext ?_⟩
  simp only [targetColumn]
  omega

theorem rowWord_ne_zero_iff (w : RowWord) : w ≠ 0#64 ↔ ∃ c : Fin 64, w.getLsbD (columnBit c) = true := by
  constructor
  · intro h
    by_contra hoff
    refine h (BitVec.eq_of_getLsbD_eq fun p hp => ?_)
    have hcol : columnBit ⟨63 - p, by omega⟩ = p := by
      simp only [columnBit]
      omega
    simpa [hcol] using not_exists.1 hoff ⟨63 - p, by omega⟩
  · rintro ⟨c, hc⟩ rfl
    simp at hc

/-- The AND of R145 sees a collision exactly when the pixel loop of R140 does. -/
theorem and_rowMask_ne_zero_iff (w : RowWord) (x0 : Nat) (b : Byte) : w &&& rowMask x0 b ≠ 0#64 ↔
    ∃ i < 8, spriteBit b i = true ∧ w.getLsbD (columnBit (targetColumn x0 i)) = true := by
  simp only [rowWord_ne_zero_iff, BitVec.getLsbD_and, Bool.and_eq_true]
  constructor
  · rintro ⟨c, hw, hmask⟩
    obtain ⟨i, hi, rfl⟩ := exists_targetColumn x0 c
    rw [rowMask_targetColumn x0 b hi, Bool.and_eq_true, decide_eq_true_eq] at hmask
    exact ⟨i, hmask.1, hmask.2, hw⟩
  · rintro ⟨i, hi, hbit, hw⟩
    exact ⟨targetColumn x0 i, hw, by simp [rowMask_targetColumn x0 b (show i < 64 by omega), hi, hbit]⟩

theorem drawRowWord_pixel (x0 : Nat) (r : Fin 32) (b : Byte) (k : Canvas) (r' : Fin 32) (c : Fin 64) :
    Display.pixel (drawRowWord x0 r b k).display r' c =
      if r' = r then Display.pixel k.display r' c ^^ (rowMask x0 b).getLsbD (columnBit c)
      else Display.pixel k.display r' c := by
  by_cases hr : r' = r
  · simp [Display.pixel, drawRowWord, hr]
  · have hv : r.val ≠ r'.val := fun h => hr (Fin.ext h.symm)
    simp [Display.pixel, drawRowWord, hr, hv]

/-- One row of either form: the pixels agree under the sprite, beside it and in the other rows, and so do the collisions. -/
theorem drawRow_eq_drawRowWord (x0 : Nat) (r : Fin 32) (b : Byte) (k : Canvas) :
    drawRow x0 r b k = drawRowWord x0 r b k := by
  obtain ⟨hunder, hother, hcollision⟩ := drawRow_spec x0 r b k
  have hdisplay : (drawRow x0 r b k).display = (drawRowWord x0 r b k).display := Display.ext_pixel fun r' c => by
    rw [drawRowWord_pixel]
    by_cases hr : r' = r
    · obtain ⟨i, hi, rfl⟩ := exists_targetColumn x0 c
      rw [if_pos hr, rowMask_targetColumn x0 b hi, hr]
      by_cases hsprite : i < 8
      · simp [hunder i hsprite, hsprite]
      · have hbeside : ∀ i' < 8, targetColumn x0 i' ≠ targetColumn x0 i := fun i' hi' he => by
          have := (targetColumn_inj (by omega) hi).1 he
          omega
        simp [hother r _ (.inr hbeside), hsprite]
    · rw [if_neg hr, hother r' c (.inl hr)]
  have hcoll : (drawRow x0 r b k).collision = (drawRowWord x0 r b k).collision := by
    rw [Bool.eq_iff_iff, hcollision]
    simp only [drawRowWord, Bool.or_eq_true, decide_eq_true_eq, and_rowMask_ne_zero_iff, Display.pixel]
  exact (Canvas.mk.injEq ..).mpr ⟨hdisplay, hcoll⟩

/-- Settles O34: the two loops have the same body, row by row. -/
theorem pixelLoopEqualsRowForm : Obligations.PixelLoopEqualsRowForm := fun _ _ _ _ _ =>
  List.foldl_ext _ _ _ fun k _ _ => drawRow_eq_drawRowWord _ _ _ k

/-! ### Start coordinates and uncovered rows (R141, R147) -/

@[simp] theorem targetRow_mod (y0 j : Nat) : targetRow (y0 % 32) j = targetRow y0 j :=
  Fin.ext (Nat.mod_add_mod y0 32 j)

@[simp] theorem targetColumn_mod (x0 i : Nat) : targetColumn (x0 % 64) i = targetColumn x0 i :=
  Fin.ext (Nat.mod_add_mod x0 64 i)

/-- The loops use their start coordinates only through the target row and column. -/
theorem drawSprite_mod (x0 y0 m : Nat) (bytes : Nat → Byte) (k : Canvas) :
    drawSprite (x0 % 64) (y0 % 32) m bytes k = drawSprite x0 y0 m bytes k := by
  have hpixel : drawPixel (x0 % 64) = drawPixel x0 := by
    funext r b k i
    simp only [drawPixel, targetColumn_mod]
  simp only [drawSprite, drawRow, hpixel, targetRow_mod]

theorem drawSprite_row (x0 y0 m : Nat) (bytes : Nat → Byte) (k : Canvas) {r : Fin 32}
    (h : ∀ j < m, targetRow y0 j ≠ r) : (drawSprite x0 y0 m bytes k).display[r.val] = k.display[r.val] := by
  induction m with
  | zero => rfl
  | succ m ih =>
    rw [drawSprite_succ, drawRow_row x0 _ _ _ (h m m.lt_succ_self).symm, ih fun j hj => h j (by omega)]

/-! ### The two forms of DRW (R140, R144) -/

/-- What DRW draws: the display after the sprite, and whether a lit pixel met a 1 bit. -/
def State.drawn (s : State) (x y n : Nibble) : Canvas :=
  drawSprite (s.readV x).toNat (s.readV y).toNat n.toNat (spriteByte s) ⟨s.display, false⟩

/-- The state DRW leaves when it does not fault. -/
def State.afterDraw (s : State) (x y n : Nibble) : State :=
  ((s.setDisplay (s.drawn x y n).display).writeV regVF (collisionFlag (s.drawn x y n).collision)).setNeedsRedraw true

theorem spriteInBounds_iff : spriteInBounds s n = true ↔ n.toNat = 0 ∨ s.I.toNat + n.toNat - 1 ≤ 0xFFF := by
  rw [spriteInBounds, Bool.or_eq_true, decide_eq_true_iff, decide_eq_true_iff]
  rfl

theorem exec_drw_drawn (hb : n.toNat = 0 ∨ s.I.toNat + n.toNat - 1 ≤ 0xFFF) :
    exec (.drwVxVyN x y n) s = .next (s.afterDraw x y n) :=
  if_pos (spriteInBounds_iff.2 hb)

theorem exec_drw_spriteBounds (hb : ¬ (n.toNat = 0 ∨ s.I.toNat + n.toNat - 1 ≤ 0xFFF)) :
    exec (.drwVxVyN x y n) s = .next (s.setFault (some .spriteBounds)) :=
  if_neg (mt spriteInBounds_iff.1 hb)

/-- The two forms, for a DRW known to have answered `t`. -/
theorem exec_drw_next (h : exec (.drwVxVyN x y n) s = .next t) :
    ((n.toNat = 0 ∨ s.I.toNat + n.toNat - 1 ≤ 0xFFF) ∧ t = s.afterDraw x y n) ∨
    (¬ (n.toNat = 0 ∨ s.I.toNat + n.toNat - 1 ≤ 0xFFF) ∧ t = s.setFault (some .spriteBounds)) := by
  by_cases hb : n.toNat = 0 ∨ s.I.toNat + n.toNat - 1 ≤ 0xFFF
  · exact .inl ⟨hb, Host.Outcome.next.inj (h.symm.trans (exec_drw_drawn hb))⟩
  · exact .inr ⟨hb, Host.Outcome.next.inj (h.symm.trans (exec_drw_spriteBounds hb))⟩

/-! ### The state after a draw (R140 to R143) -/

/-- A sprite bit of 1 lies over a pixel of value `v`: over a lit one it collides (R142), over a dark one it lights it. -/
def State.SpriteOver (s : State) (x y n : Nibble) (v : Bool) : Prop :=
  ∃ j < n.toNat, ∃ i < 8, spritePixel s j i = true ∧ s.pixel (drawnRow (s.readV y) j) (drawnColumn (s.readV x) i) = v

/-- The rows of a sprite are distinct on a display of 32 rows. -/
theorem height_le_dispRows (n : Nibble) : n.toNat ≤ 32 := n.isLt.le.trans (by decide)

theorem State.afterDraw_pixel_under {j i : Nat} (hj : j < n.toNat) (hi : i < 8) :
    (s.afterDraw x y n).pixel (drawnRow (s.readV y) j) (drawnColumn (s.readV x) i) =
      (s.pixel (drawnRow (s.readV y) j) (drawnColumn (s.readV x) i) ^^ spritePixel s j i) := by
  obtain ⟨hunder, -, -⟩ := drawSprite_spec (s.readV x).toNat (s.readV y).toNat (spriteByte s) ⟨s.display, false⟩
    (height_le_dispRows n)
  exact hunder j hj i hi

theorem State.afterDraw_pixel_other {r : Fin 32} {c : Fin 64}
    (h : ∀ j < n.toNat, ∀ i < 8, ¬ (drawnRow (s.readV y) j = r ∧ drawnColumn (s.readV x) i = c)) :
    (s.afterDraw x y n).pixel r c = s.pixel r c := by
  obtain ⟨-, hother, -⟩ := drawSprite_spec (s.readV x).toNat (s.readV y).toNat (spriteByte s) ⟨s.display, false⟩
    (height_le_dispRows n)
  exact hother r c h

theorem State.drawn_collision_iff (s : State) (x y n : Nibble) :
    (s.drawn x y n).collision = true ↔ s.SpriteOver x y n true := by
  obtain ⟨-, -, hcollision⟩ := drawSprite_spec (s.readV x).toNat (s.readV y).toNat (spriteByte s) ⟨s.display, false⟩
    (height_le_dispRows n)
  exact hcollision.trans (or_iff_right Bool.false_ne_true)

theorem State.afterDraw_readV_other {v : Nibble} (hv : v ≠ 0xF#4) : (s.afterDraw x y n).readV v = s.readV v :=
  State.readV_writeV_other _ hv.symm _

theorem State.afterDraw_readVF (s : State) (x y n : Nibble) :
    (s.afterDraw x y n).readV 0xF#4 = collisionFlag (s.drawn x y n).collision :=
  State.readV_writeV_same _ regVF _

theorem collisionFlag_cases (b : Bool) : collisionFlag b = 0x00#8 ∨ collisionFlag b = 0x01#8 := by
  cases b
  · exact .inl rfl
  · exact .inr rfl

theorem collisionFlag_eq_one_iff {b : Bool} : collisionFlag b = 0x01#8 ↔ b = true := by
  cases b <;> decide

theorem State.afterDraw_readVF_eq_one_iff (s : State) (x y n : Nibble) :
    (s.afterDraw x y n).readV 0xF#4 = 0x01#8 ↔ s.SpriteOver x y n true := by
  rw [State.afterDraw_readVF, collisionFlag_eq_one_iff, State.drawn_collision_iff]

/-- Settles O28: `exec_drw_drawn` gives the state, and the `afterDraw` lemmas its pixels and VF. -/
theorem drwDrawsTheSprite : Obligations.DrwDrawsTheSprite := by
  intro x y n s hb
  refine ⟨_, exec_drw_drawn hb, fun _ hj _ hi => State.afterDraw_pixel_under hj hi,
    fun _ _ => State.afterDraw_pixel_other, ?flag, s.afterDraw_readVF_eq_one_iff x y n,
    fun _ => State.afterDraw_readV_other, rfl, rfl⟩
  case flag =>
    rw [State.afterDraw_readVF]
    exact collisionFlag_cases _

/-! ### The display of a draw -/

/-- A state that agrees with `s` under its sprite and outside it has the display of `s`. -/
theorem State.display_eq_of_pixels
    (hunder : ∀ j < n.toNat, ∀ i < 8, t.pixel (drawnRow (s.readV y) j) (drawnColumn (s.readV x) i) =
      s.pixel (drawnRow (s.readV y) j) (drawnColumn (s.readV x) i))
    (hother : ∀ r c, (∀ j < n.toNat, ∀ i < 8, ¬ (drawnRow (s.readV y) j = r ∧ drawnColumn (s.readV x) i = c)) →
      t.pixel r c = s.pixel r c) : t.display = s.display := by
  refine Display.ext_pixel fun r c => ?_
  by_cases hcover : ∃ j < n.toNat, ∃ i < 8, drawnRow (s.readV y) j = r ∧ drawnColumn (s.readV x) i = c
  · obtain ⟨j, hj, i, hi, rfl, rfl⟩ := hcover
    exact hunder j hj i hi
  · exact hother r c fun j hj i hi h => hcover ⟨j, hj, i, hi, h⟩

theorem spritePixel_of_byteAt_zero {j : Nat} (h : s.memory.byteAt (s.I.toNat + j) = 0x00#8) (i : Nat) :
    spritePixel s j i = false := by
  simp [spritePixel, h]

/-- An all-zero sprite, or one of height 0, changes no pixel (R148). -/
theorem State.afterDraw_display_of_zero (hzero : ∀ j < n.toNat, s.memory.byteAt (s.I.toNat + j) = 0x00#8) :
    (s.afterDraw x y n).display = s.display :=
  State.display_eq_of_pixels
    (fun j hj i hi => by
      rw [State.afterDraw_pixel_under hj hi, spritePixel_of_byteAt_zero (hzero j hj), Bool.xor_false])
    (fun _ _ => State.afterDraw_pixel_other)

theorem State.afterDraw_display_congr {u : State} (hmem : s.memory = u.memory) (hI : s.I = u.I)
    (hdisp : s.display = u.display) (hx : (s.readV x).toNat % 64 = (u.readV x).toNat % 64)
    (hy : (s.readV y).toNat % 32 = (u.readV y).toNat % 32) :
    (s.afterDraw x y n).display = (u.afterDraw x y n).display := by
  have hbytes : spriteByte s = spriteByte u := by
    funext j
    rw [spriteByte, spriteByte, hmem, hI]
  have hdrawn : s.drawn x y n = u.drawn x y n := by
    rw [State.drawn, State.drawn, ← drawSprite_mod, hx, hy, hbytes, hdisp, drawSprite_mod]
  exact congrArg Canvas.display hdrawn

/-- Settles O29: with equal `I` both DRWs are drawn or both fault, and a drawn display depends on the coordinates by
`drawSprite_mod`; the row and column of a sprite pixel are those of `afterDraw_pixel_under`. -/
theorem drwCoordinatesWrap : Obligations.DrwCoordinatesWrap := by
  refine ⟨fun x y n s u s' u' hmem hI hdisp hx hy hs hu => ?display, fun x y n s hb => ?pixels⟩
  case display =>
    obtain ⟨hb, rfl⟩ | ⟨hb, rfl⟩ := exec_drw_next hs <;> rw [hI] at hb
    · cases hu.symm.trans (exec_drw_drawn hb)
      exact State.afterDraw_display_congr hmem hI hdisp hx hy
    · cases hu.symm.trans (exec_drw_spriteBounds hb)
      exact hdisp
  case pixels =>
    refine ⟨_, exec_drw_drawn hb, fun j hj i hi r c hr hc => ?_⟩
    have hrow : r = drawnRow (s.readV y) j := Fin.ext hr
    have hcolumn : c = drawnColumn (s.readV x) i := Fin.ext hc
    rw [hrow, hcolumn]
    exact State.afterDraw_pixel_under hj hi

/-- Settles O31: the flag is the last write of `afterDraw`, whatever the sprite holds. -/
theorem drwAlwaysSetsRedraw : Obligations.DrwAlwaysSetsRedraw := fun _ _ _ _ hb =>
  ⟨_, exec_drw_drawn hb, rfl, State.afterDraw_display_of_zero⟩

/-- Settles O32: height 0 is in bounds whatever `I` holds, and the loop over no rows gives the canvas back, without a
collision. -/
theorem drwHeightZeroDrawsNothing : Obligations.DrwHeightZeroDrawsNothing := fun x y s =>
  ⟨_, exec_drw_drawn (.inl rfl), rfl, s.afterDraw_readVF x y 0x0#4, fun _ => State.afterDraw_readV_other, rfl, rfl⟩

/-- Settles O33, by the two forms: a drawn DRW leaves the latch and the uncovered rows, a faulted one all but the latch. -/
theorem drwFrame : Obligations.DrwFrame := by
  intro x y n s t h
  have hmem : t.memory = s.memory := (exec_next h).memory_eq
  obtain ⟨-, rfl⟩ | ⟨-, rfl⟩ := exec_drw_next h
  · exact ⟨fun _ => State.afterDraw_readV_other, rfl, rfl, rfl, rfl, State.memRead_congr hmem,
      fun _ => drawSprite_row _ _ _ _ _, fun hlatch => absurd rfl hlatch⟩
  · exact ⟨fun _ _ => rfl, rfl, rfl, rfl, rfl, State.memRead_congr hmem, fun _ _ => rfl, fun _ => rfl⟩

/-! ### Drawing twice (R146) -/

section Twice

variable (hx : x ≠ 0xF#4) (hy : y ≠ 0xF#4)

include hx hy

/-- With neither coordinate in VF, the second draw covers the pixels of the first. -/
theorem State.afterDraw_twice_pixel_under {j i : Nat} (hj : j < n.toNat) (hi : i < 8) :
    ((s.afterDraw x y n).afterDraw x y n).pixel (drawnRow (s.readV y) j) (drawnColumn (s.readV x) i) =
      ((s.afterDraw x y n).pixel (drawnRow (s.readV y) j) (drawnColumn (s.readV x) i) ^^ spritePixel s j i) := by
  have h := State.afterDraw_pixel_under (s := s.afterDraw x y n) (x := x) (y := y) hj hi
  rw [State.afterDraw_readV_other hx, State.afterDraw_readV_other hy] at h
  exact h

theorem State.afterDraw_twice_pixel_other {r : Fin 32} {c : Fin 64}
    (h : ∀ j < n.toNat, ∀ i < 8, ¬ (drawnRow (s.readV y) j = r ∧ drawnColumn (s.readV x) i = c)) :
    ((s.afterDraw x y n).afterDraw x y n).pixel r c = s.pixel r c := by
  refine (State.afterDraw_pixel_other ?_).trans (State.afterDraw_pixel_other h)
  rwa [State.afterDraw_readV_other hx, State.afterDraw_readV_other hy]

theorem State.afterDraw_twice_display : ((s.afterDraw x y n).afterDraw x y n).display = s.display :=
  State.display_eq_of_pixels
    (fun j hj i hi => by
      rw [State.afterDraw_twice_pixel_under hx hy hj hi, State.afterDraw_pixel_under hj hi, Bool.xor_assoc,
        Bool.xor_self, Bool.xor_false])
    (fun _ _ => State.afterDraw_twice_pixel_other hx hy)

/-- The first draw inverts every pixel under a 1 bit, so the second meets lit the pixels that were dark. -/
theorem State.afterDraw_spriteOver_true_iff :
    (s.afterDraw x y n).SpriteOver x y n true ↔ s.SpriteOver x y n false := by
  have hflip {j i : Nat} (hj : j < n.toNat) (hi : i < 8) (hbit : spritePixel s j i = true) :
      (s.afterDraw x y n).pixel (drawnRow (s.readV y) j) (drawnColumn (s.readV x) i) =
        !s.pixel (drawnRow (s.readV y) j) (drawnColumn (s.readV x) i) := by
    rw [State.afterDraw_pixel_under hj hi, hbit, Bool.xor_true]
  rw [State.SpriteOver, State.afterDraw_readV_other hx, State.afterDraw_readV_other hy]
  constructor
  · rintro ⟨j, hj, i, hi, hbit, hlit⟩
    exact ⟨j, hj, i, hi, hbit, by rwa [hflip hj hi hbit, Bool.not_eq_true'] at hlit⟩
  · rintro ⟨j, hj, i, hi, hbit, hdark⟩
    exact ⟨j, hj, i, hi, hbit, by rw [hflip hj hi hbit, hdark, Bool.not_false]⟩

end Twice

/-- Settles O35: a pixel XORed twice with one sprite bit is as before, and the `afterDraw` lemmas give both collisions. -/
theorem drawingTwiceErases : Obligations.DrawingTwiceErases := fun x y n s hx hy hb =>
  ⟨_, _, exec_drw_drawn hb, exec_drw_drawn (s := s.afterDraw x y n) hb, State.afterDraw_twice_display hx hy,
    s.afterDraw_readVF_eq_one_iff x y n,
    (State.afterDraw_readVF_eq_one_iff _ x y n).trans (State.afterDraw_spriteOver_true_iff hx hy)⟩

/-! ### The sprite out of bounds (R144) -/

/-- Settles O30: the execute phase sets the latch alone, and in the step it follows a legal fetch. -/
theorem drwOutOfBoundsRaisesSpriteBounds : Obligations.DrwOutOfBoundsRaisesSpriteBounds := by
  intro x y n s hn hI
  have hb : ¬ (n.toNat = 0 ∨ s.I.toNat + n.toNat - 1 ≤ 0xFFF) := by omega
  refine ⟨exec_drw_spriteBounds hb, fun hrun hpc hdec => ?step, rfl⟩
  case step =>
    rw [step_running hrun (Nat.le_of_succ_le_succ hpc), hdec]
    exact exec_drw_spriteBounds (s := s.setPc (s.pc + 2#16)) hb

end Sys2Proof.Machine
end

section
/-! The statements of 44_unrecognized.md: a word that no instruction row selects is skipped (R160). -/

namespace Sys2Proof

/-! ### The words that no row of R85 selects (30_encoding.md R87) -/

/-- The six rows of R85 are the rows of the six recognized instructions, and of no other. -/
theorem Instr.isUnrecognized_iff_row {i : Instr} : i.isUnrecognized = true ↔ i.row ∉ instructionRows := by
  cases i <;> simp [Instr.isUnrecognized, Instr.row, instructionRows]

theorem Instr.row_mem_of_isUnrecognized {i : Instr} (hi : i.isUnrecognized = true) :
    i.row ∈ category0Rows ++ categoryRows := by
  have hrow : i.row ∈ instructionRows ++ (category0Rows ++ categoryRows) := by
    simpa [opcodeTable] using i.row_mem_opcodeTable
  exact (List.mem_append.1 hrow).resolve_left (Instr.isUnrecognized_iff_row.1 hi)

theorem selects_decode (w : Word) : (decode w).row.selects w = true := by
  simpa using (decode w).row_selects_encode

/-- The row of the decoded instruction selects the word, so it is none of the rows that do not. -/
theorem isUnrecognized_decode_of_rows {w : Word} (h : (instructionRows.all fun r => !r.selects w) = true) :
    (decode w).isUnrecognized = true := by
  refine Instr.isUnrecognized_iff_row.2 fun hmem => ?_
  have hnot := List.all_eq_true.1 h _ hmem
  simp [selects_decode] at hnot

end Sys2Proof

namespace Sys2Proof.Machine

variable {s t : State} {i : Instr}

/-! ### The skip (R160) -/

/-- Every effect but the skip is that of a recognized instruction. -/
theorem Effect.eq_of_isUnrecognized (h : Effect s i t) (hi : i.isUnrecognized = true) : t = s := by
  cases h
  case skipped => rfl
  all_goals cases hi

theorem exec_of_isUnrecognized (hi : i.isUnrecognized = true) (s : State) : exec i s = .next s := by
  obtain ⟨t, ht, he⟩ := exec_effect i s
  rw [ht, he.eq_of_isUnrecognized hi]

/-- Settles O26: the word decodes to an unrecognized instruction, whose row selects it; the step is the fetch's advance of `pc`
and then the skip. -/
theorem unrecognizedWordIsSkipped : Obligations.UnrecognizedWordIsSkipped := by
  intro s hrun hlegal hrows
  have hpc : s.pc.toNat ≤ 0xFFE := Nat.le_of_succ_le_succ hlegal
  have hi : (decode (fetchedWord s)).isUnrecognized = true := isUnrecognized_decode_of_rows hrows
  refine ⟨?row, ?step, pc_advance_toNat hpc, ?event⟩
  case row => exact List.any_eq_true.2 ⟨_, Instr.row_mem_of_isUnrecognized hi, selects_decode _⟩
  case step => exact (step_running hrun hpc).trans (exec_of_isUnrecognized hi _)
  case event => rw [diagOut_running hrun hpc, if_pos hi]

/-- Settles O27: the constructors listed are unrecognized, so `exec` skips each. -/
theorem everyUnrecognizedRowCompletes : Obligations.EveryUnrecognizedRowCompletes := by
  intro a b r s
  refine ⟨fun i hi => exec_of_isUnrecognized ?category0 s, fun i hi => exec_of_isUnrecognized ?categories s⟩
  case category0 =>
    revert i
    simp [Instr.isUnrecognized]
  case categories =>
    revert i
    simp [Instr.isUnrecognized]

end Sys2Proof.Machine
end

section
/-! The statements of 60_exceptions.md: a raised fault is precise (R174, R178), a halted core is left by reset alone (R173,
R176), and `needs_redraw` marks the steps that drew (R181). -/

namespace Sys2Proof.Machine

variable {s t : State} {i : Instr} {c : FaultCause}

/-! ### What an effect does to the latch and to `needs_redraw` -/

/-- The sprite of a DRW of height `n` does not fit (R144). -/
theorem spriteInBounds_eq_false_iff {n : Nibble} :
    spriteInBounds s n = false ↔ 1 ≤ n.toNat ∧ 0xFFF < s.I.toNat + n.toNat - 1 := by
  rw [← Bool.not_eq_true, spriteInBounds_iff]
  omega

/-- The one write of the latch in the execute phase is that of a DRW whose sprite does not fit, and it is its only change (R172). -/
theorem Effect.fault_cases (h : Effect s i t) : t.fault = s.fault ∨
    (t = s.setFault (some .spriteBounds) ∧
      ∃ x y n, i = .drwVxVyN x y n ∧ 1 ≤ n.toNat ∧ 0xFFF < s.I.toNat + n.toNat - 1) := by
  cases h
  case spriteBounds x y n hb => exact .inr ⟨rfl, x, y, n, rfl, spriteInBounds_eq_false_iff.1 hb⟩
  all_goals exact .inl rfl

/-- From a clear flag and a clear latch, an effect sets the flag exactly when it is that of a CLS or of a DRW that drew. -/
theorem Effect.needsRedraw_iff (h : Effect s i t) (hclear : s.needsRedraw = false) (hrun : s.fault = none) :
    t.needsRedraw = true ↔
      t.fault = none ∧ ((∃ n2 n4, i = .cls n2 n4) ∨ ∃ x y n, i = .drwVxVyN x y n) := by
  by_cases hi : (∃ n2 n4, i = .cls n2 n4) ∨ ∃ x y n, i = .drwVxVyN x y n
  · obtain ⟨n2, n4, rfl⟩ | ⟨x, y, n, rfl⟩ := hi
    · cases h with
      | cls => simp [hrun]
      | skipped _ hskip => cases hskip
    · cases h with
      | drawn => simp [hrun]
      | spriteBounds => simp [hclear]
      | skipped _ hskip => cases hskip
  · obtain ⟨-, hkeep, -⟩ :=
      h.output_eq (fun n2 n4 hcls => hi (.inl ⟨n2, n4, hcls⟩)) fun x y n hdrw => hi (.inr ⟨x, y, n, hdrw⟩)
    simp [hkeep, hclear, hi]

/-- Settles O4: a faulting fetch leaves the flag clear, and an executed word sets it as its effect does. -/
theorem redrawFlagMarksClsAndDraw : Obligations.RedrawFlagMarksClsAndDraw := by
  intro s t hclear h
  obtain ⟨hrun, ⟨-, rfl⟩ | ⟨-, he⟩⟩ := step_next h
  · simp [hclear]
  · exact he.needsRedraw_iff hclear hrun

/-- Settles O11: the latch is clear before the step, so it is written by the faulting fetch or by the one effect that writes it. -/
theorem faultsArePrecise : Obligations.FaultsArePrecise := by
  intro s t h c hc
  obtain ⟨hrun, ⟨hpc, rfl⟩ | ⟨hpc, he⟩⟩ := step_next h
  · cases hc
    exact .inl ⟨rfl, Nat.lt_succ_of_le hpc, rfl⟩
  · obtain hkeep | ⟨rfl, hdrw⟩ := he.fault_cases
    · cases hc.symm.trans (hkeep.trans hrun)
    · cases hc
      exact .inr ⟨rfl, Nat.succ_le_succ hpc, rfl, hdrw⟩

/-! ### The halted core (R173, R176) -/

/-- The `step` port ignores a halted core and no other port but reset writes the latch. -/
theorem Session.accept_keeps_latch {h h' : Session} {a : HostInput} (hf : h.core.fault = some c) (ha : a ≠ .reset)
    (hacc : h.accept a = some h') : h'.core.fault = some c := by
  cases Session.accept_some hacc with
  | reset => exact absurd rfl ha
  | load a b s _ hload => exact (loadPort_fault hload).trans hf
  | step => exact (congrArg State.fault (stepPort_halted hf)).trans hf
  | redrawAck => exact hf

/-- Settles O9, port by port; the `step` port leaves the halted state fixed, and so does every iterate of it. -/
theorem haltedCoreIgnoresSteps : Obligations.HaltedCoreIgnoresSteps := fun _ _ hf =>
  ⟨step_halted hf, Function.iterate_fixed (stepPort_halted hf), diagOut_halted hf, rfl, hf,
    fun _ _ _ hload => (loadPort_fault hload).trans hf, fun _ _ _ => Session.accept_keeps_latch hf⟩

end Sys2Proof.Machine
end

section
/-! The statements of 70_reset_and_hazards.md: reset (R200), the load contract (R203, R204), the ends of a program (R207, R208)
and the host's scheduler (R214). -/

namespace Sys2Proof.Machine

variable {s t : State} {h : Session}

/-! ### Reset (R200) -/

/-- Settles O1: the memory of the reset state lists no byte, and its display is the blank one. -/
theorem resetLeavesTheSpecValues : Obligations.ResetLeavesTheSpecValues := by
  refine ⟨fun _ => rfl, fun a => ?memory, rfl, rfl, fun x => ?registers, rfl, rfl, blankDisplay_pixel, rfl, rfl, rfl⟩
  case memory => simp only [State.memRead, validAddress, Config.memTop, decide_eq_true_eq]; rfl
  case registers => exact Vector.getElem_replicate _

/-! ### The load contract (R203, R204) -/

theorem loadImage_fits {image : List Byte} (hfit : image.length ≤ 3584) :
    loadImage image = some (State.reset.setMemory (Memory.writeBytes [] 0x200 image)) :=
  if_pos (decide_eq_true hfit)

theorem loadImage_eq_none_iff {image : List Byte} : loadImage image = none ↔ 3584 < image.length := by
  simp [loadImage, isImage]

theorem loadPort_eq_none_iff {a : Nat} {b : Byte} : loadPort a b s = none ↔ a < 0x200 ∨ 0xFFF < a := by
  simp only [loadPort, Config.entry, Config.memTop, ite_eq_right_iff, reduceCtorEq, imp_false]
  omega

/-- Settles O3: both refusals are the else branch of the one bounds check. -/
theorem oversizedImageIsRefused : Obligations.OversizedImageIsRefused :=
  ⟨fun _ => loadImage_eq_none_iff, fun _ _ _ => loadPort_eq_none_iff⟩

/-- Writes at two addresses commute: both orders read the same everywhere, and canonical memories are their reads. -/
theorem Memory.write_comm {m : Memory} (hm : m.wf = true) {a a' : Nat} (ha : a < Config.memSize)
    (ha' : a' < Config.memSize) (hne : a ≠ a') (b b' : Byte) :
    (m.write a b).write a' b' = (m.write a' b').write a b := by
  have hwf := Memory.write_wf hm ha b
  have hwf' := Memory.write_wf hm ha' b'
  refine Memory.eq_of_byteAt_eq (Memory.write_wf hwf ha' b') (Memory.write_wf hwf' ha b) fun x => ?_
  rw [Memory.byteAt_write hwf, Memory.byteAt_write hm, Memory.byteAt_write hwf', Memory.byteAt_write hm]
  by_cases hx : a = x
  · rw [if_pos hx, if_pos hx, if_neg fun hx' => hne (hx.trans hx'.symm)]
  · rw [if_neg hx, if_neg hx]

/-- Before the first step, a load inside the image range is accepted (R180). -/
theorem Session.accept_load_inside {a : Nat} (ha : 0x200 ≤ a ∧ a ≤ 0xFFF) (b : Byte) (s : State) :
    Session.accept ⟨s, false⟩ (.load a b) = some ⟨s.setMemory (s.memory.write a b), false⟩ := by
  simp [Session.accept, loadPort_inside ha.1 ha.2]

theorem Session.accept_load_outside {a : Nat} (ha : ¬ (0x200 ≤ a ∧ a ≤ 0xFFF)) (b : Byte) (h : Session) :
    h.accept (.load a b) = none := by
  simp [Session.accept, loadPort, ha]

theorem Session.run_cons (h : Session) (x : HostInput) (xs : List HostInput) :
    Session.run h (x :: xs) = (h.accept x).bind (Session.run · xs) := by
  cases hx : h.accept x <;> simp [Session.run, hx]

/-- Two loads, at different addresses. -/
inductive HostInput.LoadsApart : HostInput → HostInput → Prop
  | intro (a : Nat) (b : Byte) (a' : Nat) (b' : Byte) (hne : a ≠ a') : LoadsApart (.load a b) (.load a' b')

theorem HostInput.LoadsApart.symm {x y : HostInput} (hxy : x.LoadsApart y) : y.LoadsApart x := by
  obtain ⟨a, b, a', b', hne⟩ := hxy
  exact ⟨a', b', a, b, hne.symm⟩

/-- Loads at different addresses commute; where a session refuses one of them, it refuses both orders. -/
theorem Session.accept_comm (hinv : SessionInv h) {x y : HostInput} (hxy : x.LoadsApart y) :
    (h.accept x).bind (Session.accept · y) = (h.accept y).bind (Session.accept · x) := by
  obtain ⟨a, b, a', b', hne⟩ := hxy
  obtain ⟨s, started⟩ := h
  cases started with
  | true => rfl
  | false =>
    by_cases ha : 0x200 ≤ a ∧ a ≤ 0xFFF
    · by_cases ha' : 0x200 ≤ a' ∧ a' ≤ 0xFFF
      · have hcomm := Memory.write_comm hinv.coreInv.memoryWf (Nat.lt_succ_of_le ha.2) (Nat.lt_succ_of_le ha'.2) hne b b'
        simp only [Session.accept_load_inside ha, Session.accept_load_inside ha', Option.bind_some,
          State.setMemory_memory, hcomm]
        rfl
      · simp [Session.accept_load_outside ha']
    · simp [Session.accept_load_outside ha]

/-- Swap by swap: every action keeps the session invariant, so every swap meets the commuting loads at a session that has it. -/
theorem Session.run_perm {xs ys : List HostInput} (hperm : xs.Perm ys) (hinv : SessionInv h)
    (hapart : xs.Pairwise HostInput.LoadsApart) : Session.run h xs = Session.run h ys := by
  induction hperm generalizing h with
  | nil => rfl
  | cons x _ ih =>
    rw [Session.run_cons, Session.run_cons]
    exact Option.bind_congr fun u hu =>
      ih (hostActionsKeepTheSessionInvariant h u x hinv hu) hapart.of_cons
  | swap x y zs =>
    have hyx : y.LoadsApart x := List.rel_of_pairwise_cons hapart List.mem_cons_self
    simp only [Session.run_cons, ← Option.bind_assoc, Session.accept_comm hinv hyx]
  | trans hfirst _ ih ih' =>
    exact (ih hinv hapart).trans (ih' hinv ((hfirst.pairwise_iff HostInput.LoadsApart.symm).1 hapart))

/-- The loads of consecutive bytes, in the order of their addresses. -/
def loadsFrom (a : Nat) (bs : List Byte) : List HostInput := bs.mapIdx fun k b => .load (a + k) b

theorem loadsFrom_cons (a : Nat) (b : Byte) (bs : List Byte) : loadsFrom a (b :: bs) = .load a b :: loadsFrom (a + 1) bs := by
  simp [loadsFrom, Nat.add_assoc, Nat.add_comm 1]

theorem loadsFrom_apart (a : Nat) (bs : List Byte) : (loadsFrom a bs).Pairwise HostInput.LoadsApart := by
  rw [List.pairwise_iff_getElem]
  intro i j hi hj hij
  simp only [loadsFrom, List.getElem_mapIdx]
  exact ⟨_, _, _, _, by omega⟩

/-- In the order of their addresses, the loads are the loader's writes. -/
theorem Session.run_loadsFrom {a : Nat} {bs : List Byte} (ha : 0x200 ≤ a) (hfit : a + bs.length ≤ 0x1000) (s : State) :
    Session.run ⟨s, false⟩ (loadsFrom a bs) = some ⟨s.setMemory (s.memory.writeBytes a bs), false⟩ := by
  induction bs generalizing a s with
  | nil => rfl
  | cons b bs ih =>
    rw [List.length_cons] at hfit
    rw [loadsFrom_cons, Session.run_cons, Session.accept_load_inside ⟨ha, by omega⟩]
    exact ih (by omega) (by omega) _

/-- Settles O2: loads at different addresses commute, and in the order of the addresses they are the loader's writes. -/
theorem loadPlacesTheImageInAnyOrder : Obligations.LoadPlacesTheImageInAnyOrder := by
  intro image hlen loads hperm
  have hfit : 0x200 + image.length ≤ Config.memSize := by
    simp only [Config.memSize]
    omega
  have hread := Memory.byteAt_writeBytes (m := []) rfl hfit
  refine ⟨_, ?run, loadImage_fits hlen, fun k hk => ?inside, fun a ha hout => ?outside, rfl⟩
  case run =>
    rw [← Session.run_perm hperm.symm sessionInv_start (loadsFrom_apart 0x200 image)]
    exact Session.run_loadsFrom le_rfl hfit State.reset
  case inside =>
    refine State.memRead_eq_some.2 ⟨by omega, (hread _).trans ?_⟩
    rw [if_pos (by omega)]
    simp [hk]
  case outside =>
    refine State.memRead_eq_some.2 ⟨ha, (hread a).trans ?_⟩
    rw [if_neg (by omega)]
    rfl

/-! ### The ends of a program (R207, R208) -/

/-- A DRW of some height that leaves the latch clear has drawn its sprite, which then fits (R144). -/
theorem Effect.sprite_fits {x y n : Nibble} (he : Effect s (.drwVxVyN x y n) t) (hnone : t.fault = none)
    (hn : 1 ≤ n.toNat) : s.I.toNat + n.toNat - 1 ≤ 0xFFF := by
  cases he with
  | drawn _ _ _ _ hb => exact (spriteInBounds_iff.1 hb).resolve_left (by omega)
  | spriteBounds => cases hnone
  | skipped _ hskip => cases hskip

/-- Settles O12: a fault of the step is one of the two precise faults, whose conditions are the two bounds. -/
theorem stepInBoundsRaisesNoFault : Obligations.StepInBoundsRaisesNoFault := by
  intro s hrun
  constructor
  · rintro ⟨hpc, hsprite⟩
    obtain ⟨t, ht⟩ := step_running_total hrun
    refine ⟨t, ht, Option.eq_none_iff_forall_ne_some.2 fun c hc => ?_⟩
    obtain ⟨-, hout, -⟩ | ⟨-, -, -, x, y, n, hdrw, hn, hI⟩ := faultsArePrecise s t ht c hc
    · omega
    · exact absurd (hsprite x y n hdrw hn) (by omega)
  · rintro ⟨t, ht, hnone⟩
    obtain ⟨-, ⟨-, rfl⟩ | ⟨hpc, he⟩⟩ := step_next ht
    · cases hnone
    · refine ⟨hpc, fun x y n hdrw hn => ?_⟩
      rw [hdrw] at he
      exact he.sprite_fits hnone hn

/-- The word at `pc` is the jump to `pc`, so a step is that jump (R110). -/
theorem NormalEnd.step_eq_self (hend : NormalEnd s) : step s = .next s := by
  obtain ⟨hrun, hpc, hword⟩ := hend
  have hlow : (fetchedWord s).toNat % 4096 = s.pc.toNat := by omega
  obtain ⟨-, -, hjump, -⟩ := decodeFollowsTheOpcodeMap (fetchedWord s)
  refine (step_eq_self_iff hrun).2 ⟨hpc, _, hjump (by omega), ?_⟩
  rw [hlow, BitVec.toNat_ofNat, Nat.mod_eq_of_lt (by omega)]

theorem stepPort_of_step (hstep : step s = .next t) : stepPort s = t := by
  simp [stepPort, hstep]

theorem run_eq_self (hstep : step s = .next s) (n : Nat) : core.run n s = .next s := by
  induction n with
  | zero => rfl
  | succ n ih => exact run_succ_next.2 ⟨s, hstep, ih⟩

/-- Settles O41: the state is a fixed point of the step, and so of every run and of every iterate of the step port. -/
theorem normalEndIsStable : Obligations.NormalEndIsStable := fun _ hend n =>
  ⟨run_eq_self hend.step_eq_self n, Function.iterate_fixed (stepPort_of_step hend.step_eq_self) n⟩

/-! ### The host's scheduler (R214) -/

@[simp] theorem Pacer.handshake_lastStepTime (p : Pacer) : p.handshake.lastStepTime = p.lastStepTime := by
  unfold Pacer.handshake
  split <;> rfl

/-- The flag is clear after the handshake: it was already, or the acknowledge cleared it (R181). -/
theorem Pacer.handshake_needsRedraw (p : Pacer) : p.handshake.core.needsRedraw = false := by
  unfold Pacer.handshake
  split
  · rfl
  · exact Bool.eq_false_of_not_eq_true ‹_›

theorem Pacer.handshake_core (p : Pacer) :
    p.handshake.core = if p.core.needsRedraw then redrawAck p.core else p.core := by
  unfold Pacer.handshake
  split <;> rfl

theorem Pacer.handshake_frames (p : Pacer) :
    p.handshake.frames = if p.core.needsRedraw then p.frames ++ [displayOut p.core] else p.frames := by
  unfold Pacer.handshake
  split <;> rfl

theorem Pacer.stepOnce_lastStepTime (p : Pacer) : p.stepOnce.lastStepTime = p.lastStepTime + 100 :=
  Pacer.handshake_lastStepTime _

theorem Pacer.iterate_stepOnce_lastStepTime (k : Nat) (p : Pacer) :
    (Pacer.stepOnce^[k] p).lastStepTime = p.lastStepTime + 100 * k := by
  induction k with
  | zero => rfl
  | succ k ih => rw [Function.iterate_succ_apply', Pacer.stepOnce_lastStepTime, ih, Nat.mul_succ, Nat.add_assoc]

/-- With fuel for every whole interval owed, the loop takes one paced step for each. -/
theorem Pacer.catchUp_eq_iterate {now fuel : Nat} {p : Pacer} (hfuel : (now - p.lastStepTime) / 100 ≤ fuel) :
    Pacer.catchUp now fuel p = Pacer.stepOnce^[(now - p.lastStepTime) / 100] p := by
  induction fuel generalizing p with
  | zero => rw [Nat.le_zero.1 hfuel]; rfl
  | succ fuel ih =>
    rcases Nat.lt_or_ge (now - p.lastStepTime) 100 with hnone | howed
    · rw [Nat.div_eq_of_lt hnone]
      exact if_neg (Nat.not_le.2 hnone)
    · have hstep : (now - p.lastStepTime) / 100 = (now - p.stepOnce.lastStepTime) / 100 + 1 := by
        rw [Pacer.stepOnce_lastStepTime]
        omega
      rw [hstep, Function.iterate_succ_apply, ← ih (by omega)]
      exact if_pos howed

/-- Settles O5: the loop takes a paced step per whole interval owed, each advances the timestamp by one, and what a paced step
does to the core and the frames is the handshake after the step port. -/
theorem tickTakesOneStepPerInterval : Obligations.TickTakesOneStepPerInterval := by
  intro now p
  have htick : Pacer.tick now p = Pacer.stepOnce^[(now - p.lastStepTime) / 100] p :=
    Pacer.catchUp_eq_iterate ((Nat.div_le_self _ _).trans (Nat.sub_le _ _))
  have htime := (congrArg Pacer.lastStepTime htick).trans (Pacer.iterate_stepOnce_lastStepTime _ p)
  refine ⟨htick, htime, ?debt, Pacer.handshake_needsRedraw _, Pacer.handshake_core _, Pacer.handshake_frames _⟩
  case debt =>
    rw [htime]
    omega

end Sys2Proof.Machine
end
